-- ==== Sys2Proof/Word.lean ====
section
/-! DEFINITION. The word types of the core: a byte (a register, a memory cell, an operand byte, `FL`) and the 9-bit
program counter (00_scope.md R5, R11; 10_state.md R13, R20). -/

namespace Sys2Proof

/-- An 8-bit unsigned quantity: the width of a register and of a memory cell (R5 `XLEN`, `CELLW`; R11). -/
abbrev Byte := BitVec 8

/-- The width of the program counter and of `fault_info`: 9 bits, values 0..511 (R5 `PCW`, R20, R30). -/
abbrev Addr9 := BitVec 9

end Sys2Proof
end

