-- ==== Sys2Proof/Syntax.lean ====
section
/-! DEFINITION. The eleven instructions of 30_encoding.md R61, one constructor per row of spec/opcode_table.json.
An operand is the whole operand byte (R58, R59): a register operand above 7 is a byte the instruction can carry, and it
raises RegisterIndexFault when the instruction executes, so it is kept as it stands. -/

namespace Sys2Proof

/-- The instructions, in the order of the opcode table. -/
inductive Instr where
  /-- `ADD a, b` (R88). -/
  | add (a b : Byte)
  /-- `MUL a, b` (R89). -/
  | mul (a b : Byte)
  /-- `CMP a, b` (R90). -/
  | cmp (a b : Byte)
  /-- `LDI r, imm` (R97). -/
  | ldi (r imm : Byte)
  /-- `PRN r` (R98). -/
  | prn (r : Byte)
  /-- `PUSH r` (R101). -/
  | push (r : Byte)
  /-- `POP r` (R102). -/
  | pop (r : Byte)
  /-- `HLT` (R103). -/
  | hlt
  /-- `CALL r` (R107). -/
  | call (r : Byte)
  /-- `RET` (R108). -/
  | ret
  /-- `JMP r` (R109). -/
  | jmp (r : Byte)
deriving DecidableEq, Repr

end Sys2Proof
end

