-- ==== Sys2Proof/WellFormed.lean ====
section
/-! DEFINITION. Well-formed instructions: every register operand is an index 0..7, as the format table of
30_encoding.md R58 and R59 require. The immediate of LDI may be any byte (R60). -/

namespace Sys2Proof

/-- A register operand byte that selects a register: 0..7 (R59). -/
def isRegIndex (r : Byte) : Bool := decide (r.toNat < 8)

/-- The check of R58 on every register operand of the instruction. An ill-formed instruction still executes: it raises
RegisterIndexFault (R118). -/
def Instr.wellFormed : Instr → Bool
  | .add a b => isRegIndex a && isRegIndex b
  | .mul a b => isRegIndex a && isRegIndex b
  | .cmp a b => isRegIndex a && isRegIndex b
  | .ldi r _ => isRegIndex r
  | .prn r => isRegIndex r
  | .push r => isRegIndex r
  | .pop r => isRegIndex r
  | .hlt => true
  | .call r => isRegIndex r
  | .ret => true
  | .jmp r => isRegIndex r

end Sys2Proof
end

