-- ==== Sys2Proof/Decode.lean ====
section
/-! DEFINITION. The opcode byte's fields (30_encoding.md R53 to R57, R75), the opcode table (R61), the decoder, total on
any bytes and rejecting by name (R66 to R68), the encoder, and the table-word reader the host uses. -/

namespace Sys2Proof

/-! ### The three masks (R53) and the values the decoder computes from them (R75) -/

/-- `MASK_NOPER`, bits 7..6 (R53). -/
def maskNoper : Byte := 0b11000000#8

/-- `MASK_ALU`, bit 5 (R53). -/
def maskAlu : Byte := 0b00100000#8

/-- `MASK_SETPC`, bit 4 (R53). -/
def maskSetPc : Byte := 0b00010000#8

/-- `NOPER = op[7:6]`, the operand count (R54). -/
def noper (op : Byte) : Nat := ((op &&& maskNoper) >>> 6).toNat

/-- `len = op[7:6] + 1`. The formula is applied to the value 3 too and gives 4 there (R54, R81, decision D9). -/
def instrLen (op : Byte) : Nat := noper op + 1

/-- `ALU = op[5]`: routed to the ALU dispatcher (R55). -/
def aluFlag (op : Byte) : Bool := (op &&& maskAlu) != 0#8

/-- `SETPC = op[4]`: the loop must not advance `pc` (R56). -/
def setPcFlag (op : Byte) : Bool := (op &&& maskSetPc) != 0#8

/-! ### The opcode bytes (R61; bits 3..0 are the spec's decision D1: UNVERIFIED, log entry 2) -/

/-- `OPC_ADD`. -/
def opcAdd : Byte := 0xA0
/-- `OPC_MUL`. -/
def opcMul : Byte := 0xA2
/-- `OPC_CMP`. -/
def opcCmp : Byte := 0xA7
/-- `OPC_LDI`. -/
def opcLdi : Byte := 0x82
/-- `OPC_PRN`. -/
def opcPrn : Byte := 0x47
/-- `OPC_PUSH`. -/
def opcPush : Byte := 0x45
/-- `OPC_POP`. -/
def opcPop : Byte := 0x46
/-- `OPC_HLT`. -/
def opcHlt : Byte := 0x01
/-- `OPC_CALL`. -/
def opcCall : Byte := 0x50
/-- `OPC_RET`. -/
def opcRet : Byte := 0x11
/-- `OPC_JMP`. -/
def opcJmp : Byte := 0x54

/-- The opcodes the ALU dispatcher recognises (R87). -/
def aluTable : List Byte := [opcAdd, opcMul, opcCmp]

/-- The control dispatch table: a fixed set of 8 opcodes, JMP among them (R78). -/
def controlTable : List Byte := [opcLdi, opcPrn, opcPush, opcPop, opcHlt, opcCall, opcRet, opcJmp]

/-- How many operand bytes a step reads after the opcode (R41, R76, R77): two for every ALU-flagged opcode whatever NOPER
says, the operand count for a control opcode of the table, none for an unknown control opcode. -/
def operandBytes (op : Byte) : Nat :=
  if aluFlag op then 2 else if op ∈ controlTable then noper op else 0

/-! ### The decoder -/

/-- What the decoder makes of the bytes at an instruction's address. -/
inductive DecodeResult where
  /-- An instruction, and the bytes after it. -/
  | instr (i : Instr) (rest : List Byte)
  /-- An opcode with bit 5 = 0 outside the control table: the core halts (R66). -/
  | unknownControl (op : Byte)
  /-- An opcode with bit 5 = 1 that is not ADD, MUL or CMP: UnsupportedAluOp (R67). -/
  | unsupportedAlu (op : Byte)
  /-- The byte number `missing` after the opcode (0 for the opcode itself) is needed and is not there. -/
  | truncated (missing : Nat)
deriving DecidableEq, Repr

/-- Format R: one register operand byte (R58). -/
def decodeR (mk : Byte → Instr) : List Byte → DecodeResult
  | r :: tail => .instr (mk r) tail
  | [] => .truncated 1

/-- Formats RI and RR: two operand bytes, operand0 first (R38, R58). -/
def decodeTwo (mk : Byte → Byte → List Byte → DecodeResult) : List Byte → DecodeResult
  | a :: b :: tail => mk a b tail
  | [_] => .truncated 2
  | [] => .truncated 1

/-- The ALU route: both operand bytes are read before the opcode is recognised (R76), and the opcode is tested before the
operand values (R87). -/
def decodeAlu (op : Byte) : List Byte → DecodeResult :=
  decodeTwo fun a b tail =>
    if op = opcAdd then .instr (.add a b) tail
    else if op = opcMul then .instr (.mul a b) tail
    else if op = opcCmp then .instr (.cmp a b) tail
    else .unsupportedAlu op

/-- The control route: the whole byte is compared with the table, in the order of the step's pseudocode (R73, R78). -/
def decodeControl (op : Byte) (rest : List Byte) : DecodeResult :=
  if op = opcLdi then decodeTwo (fun r imm tail => .instr (.ldi r imm) tail) rest
  else if op = opcPrn then decodeR .prn rest
  else if op = opcPush then decodeR .push rest
  else if op = opcPop then decodeR .pop rest
  else if op = opcHlt then .instr .hlt rest
  else if op = opcCall then decodeR .call rest
  else if op = opcRet then .instr .ret rest
  else if op = opcJmp then decodeR .jmp rest
  else .unknownControl op

/-- The decoder, total on any bytes (R68). The dispatcher is selected by bit 5 alone (R55). -/
def decode : List Byte → DecodeResult
  | [] => .truncated 0
  | op :: rest => if aluFlag op then decodeAlu op rest else decodeControl op rest

/-! ### The encoder, from the same table (R58, R61) -/

/-- The opcode byte of an instruction (R61). -/
def Instr.opcode : Instr → Byte
  | .add _ _ => opcAdd
  | .mul _ _ => opcMul
  | .cmp _ _ => opcCmp
  | .ldi _ _ => opcLdi
  | .prn _ => opcPrn
  | .push _ => opcPush
  | .pop _ => opcPop
  | .hlt => opcHlt
  | .call _ => opcCall
  | .ret => opcRet
  | .jmp _ => opcJmp

/-- The operand bytes of an instruction, operand0 first (R38, R58). -/
def Instr.operands : Instr → List Byte
  | .add a b => [a, b]
  | .mul a b => [a, b]
  | .cmp a b => [a, b]
  | .ldi r imm => [r, imm]
  | .prn r => [r]
  | .push r => [r]
  | .pop r => [r]
  | .hlt => []
  | .call r => [r]
  | .ret => []
  | .jmp r => [r]

/-- The bytes of an instruction in ascending address order (R38). -/
def encode (i : Instr) : List Byte := i.opcode :: i.operands

/-! ### Table words -/

/-- The three bytes (the longest instruction) of a table word of `nbits` bits: bits 7..0 are the first byte, the bits above
`nbits` are 0. -/
def tableBytes (nbits w : Nat) : List Byte :=
  let v := w % 2 ^ nbits
  [BitVec.ofNat 8 v, BitVec.ofNat 8 (v / 256), BitVec.ofNat 8 (v / 65536)]

/-- The instruction the decoder reads from a table word; none where it rejects the bytes. -/
def decodeTableWord (nbits w : Nat) : Option Instr :=
  match decode (tableBytes nbits w) with
  | .instr i _ => some i
  | .unknownControl _ => none
  | .unsupportedAlu _ => none
  | .truncated _ => none

end Sys2Proof
end

