-- ==== Sys2Proof/Config.lean ====
section
/-! DEFINITION. The implementation parameters of 00_scope.md R5 that are not part of decoding (the masks and the opcode
bytes stand in Decode.lean). The core has no free value: it is deterministic (R7). -/

namespace Sys2Proof.Config

/-- `MEMSIZE`: 256 cells, addresses 0 to 255 (R5, R31). -/
def memSize : Nat := 256

/-- `SP_INDEX`: register 7 is the stack pointer (R5, R14, R18). -/
def spIndex : Fin 8 := 7

/-- `SP_INIT`: the value of register 7 after reset (R5, R33). -/
def spInit : Byte := 0xF4

/-- `START_PC`, the one parameter a model takes as an argument: an address 0..255, default 0 (R5, R33, decision D7).
`State.resetAt` takes it as its argument; this is the default that `State.reset` uses (UNVERIFIED, unsafe: log entry 3). -/
def startPc : Byte := 0

end Sys2Proof.Config
end

