-- ==== Sys2Proof/Machine/State.lean ====
section
/-! DEFINITION. The whole architectural state of the core (10_state.md: "Nothing else is state"), the reasons a step can
stop, and the state after reset (R33). -/

namespace Sys2Proof.Machine

/-- The run status (R27). Halted and Faulted are terminal (R127). -/
inductive Status where
  | running
  | halted
  | faulted
deriving DecidableEq, Repr

/-- Why `status` became Halted (R28). -/
inductive HaltCause where
  /-- Not halted. -/
  | none
  /-- HLT was executed. -/
  | hltInstruction
  /-- A control opcode outside the table was met. -/
  | unknownOpcode
deriving DecidableEq, Repr

/-- The three faults of 60_exceptions.md R115, with the information of R116. An instruction that meets one TAKES it: the
fault entry of R119 is a next state whose `status` is Faulted (`State.raise` in Ops.lean), so no step ends in
`Host.Outcome.fault` and these values are what the raising operations hand to the fault entry (log entry 7). -/
inductive Fault where
  /-- A number above 255 is about to be used as a memory address (R117). Raised by the opcode fetch, by the operand
  fetch and by CALL's return-address check; taken as a next state. Safe: it stops where a wrapping machine goes on. -/
  | addressFault (addr : Nat)
  /-- An operand byte used as a register index is above 7 (R118). Raised by `checkReg` in ADD, MUL, CMP, LDI, PRN, PUSH,
  POP, CALL, JMP; taken as a next state. Safe: it stops where a masking machine goes on. -/
  | registerIndexFault (i : Byte)
  /-- An opcode with bit 5 = 1 that is not ADD, MUL or CMP (R120). Raised by the engine's ALU route; taken as a next
  state. Safe: the spec calls it fatal. -/
  | unsupportedAluOp (op : Byte)
deriving DecidableEq, Repr

/-- Reasons for having no meaning. Every instruction of the opcode table has one, so no step ends in a refusal. -/
inductive Refusal where
  /-- The instruction has no meaning yet: raised by an arm of `exec` only, and by none of them. Safe. -/
  | notModelled (mnemonic : String)
deriving DecidableEq, Repr

/-- The memory array (R31): the cells that are not 0, as (address, byte) pairs by rising address. -/
abbrev Memory := List Host.Cell

/-- What an unlisted address reads as: 0, the reset value of every cell (R33, R52). -/
def Memory.unlisted : Byte := 0

/-- The architectural state of the core. -/
structure State where
  /-- The register file, 8 registers of 8 bits (R13); `x[7]` is SP (R18). -/
  x : Vector Byte 8
  /-- The program counter, 9 bits (R20). -/
  pc : Addr9
  /-- The flags register: bit 0 Equal, bit 1 Greater, bit 2 Less (R23). -/
  fl : Byte
  /-- The run status (R27). -/
  status : Status
  /-- Why the core halted (R28). -/
  haltCause : HaltCause
  /-- 0 no fault, 1 AddressFault, 2 RegisterIndexFault, 3 UnsupportedAluOp (R29). -/
  faultCause : BitVec 2
  /-- The offending address, operand byte or opcode byte (R30). -/
  faultInfo : BitVec 9
  /-- The 256 cells of code, data and stack (R31). -/
  mem : Memory
  /-- The values PRN has emitted, in execution order (R32). -/
  out : List Byte
deriving DecidableEq, Repr

/-- The state after reset with the start address `startPc` (R33, R135). -/
def State.resetAt (startPc : Byte) : State where
  x := #v[0, 0, 0, 0, 0, 0, 0, Config.spInit]
  pc := startPc.setWidth 9
  fl := 0
  status := .running
  haltCause := .none
  faultCause := 0
  faultInfo := 0
  mem := []
  out := []

/-- The state after reset with the default start address (R33, R5 `START_PC`). -/
def State.reset : State := State.resetAt Config.startPc

end Sys2Proof.Machine
end

