-- ==== Sys2Proof/Machine/Ops.lean ====
section
/-! DEFINITION. The named operations of 00_scope.md R12 over registers, memory, `out`, `status` and `pc`: the register file,
the checked memory access, taking a fault (R119), halting, the loop's `pc` update (R79) and the end of a step. -/

namespace Sys2Proof.Machine

/-! ### Registers (R13, R15) -/

/-- `x[i]`. -/
def State.readReg (s : State) (i : Fin 8) : Byte := s.x[i]

/-- `x[i] <- v`. No register is hardwired (R15). -/
def State.writeReg (s : State) (i : Fin 8) (v : Byte) : State := { s with x := s.x.set i v }

/-- `SP`, another name for `x[7]` (R12, R18). -/
def State.sp (s : State) : Byte := s.readReg Config.spIndex

/-! ### Memory (R40, R45) -/

/-- `M[addr] <- v`: one cell of the array written, every other cell as before (R31, R42). -/
def State.writeCell (s : State) (addr : Nat) (v : Byte) : State := { s with mem := Memory.write s.mem addr v }

/-- `MemRead(addr, 1)`: AddressFault above 255, else the cell (R12, R45). -/
def memRead (addr : Nat) (s : State) : Except Fault Byte :=
  if addr < Config.memSize then .ok (Memory.read s.mem addr) else .error (.addressFault addr)

/-- `MemWrite(addr, 1, v)`: AddressFault above 255, else the cell is written (R12, R45). -/
def memWrite (addr : Nat) (v : Byte) (s : State) : Except Fault State :=
  if addr < Config.memSize then .ok (s.writeCell addr v) else .error (.addressFault addr)

/-- Store consecutive bytes from an address on, leaving out what would lie above 255: the host's load (R9), not an access
of the core. -/
def storeBytes : Nat → List Byte → State → State
  | _, [], s => s
  | addr, v :: vs, s =>
    storeBytes (addr + 1) vs (if addr < Config.memSize then s.writeCell addr v else s)

/-! ### Output (R32) -/

/-- `Out(v)`: appends the value to the output stream (R12, R98). -/
def State.emit (s : State) (v : Byte) : State := { s with out := s.out ++ [v] }

/-! ### Program counter (R20, R79) -/

/-- `pc <- target`. -/
def State.setPc (s : State) (target : Addr9) : State := { s with pc := target }

/-- `pc <- zext_9(v)`: an 8-bit target loaded into `pc` (R11, R110). -/
def State.jumpTo (s : State) (v : Byte) : State := s.setPc (v.setWidth 9)

/-- The loop's update of `pc`: add the length unless bit 4 of the opcode is set (R79). The addition is in 9 bits and
from `pc` at most 255 it never wraps (R20, decision D2). -/
def State.updatePc (s : State) (op : Byte) : State :=
  if setPcFlag op then s else s.setPc (s.pc + BitVec.ofNat 9 (instrLen op))

/-! ### Halts and faults (60_exceptions.md) -/

/-- `status <- Halted; halt_cause <- cause` (R121, R122). -/
def State.halt (s : State) (cause : HaltCause) : State := { s with status := .halted, haltCause := cause }

/-- The number of a fault (R116). -/
def Fault.code : Fault → BitVec 2
  | .addressFault _ => 1
  | .registerIndexFault _ => 2
  | .unsupportedAluOp _ => 3

/-- What `fault_info` records of a fault (R30, R116). -/
def Fault.info : Fault → BitVec 9
  | .addressFault addr => BitVec.ofNat 9 addr
  | .registerIndexFault i => i.setWidth 9
  | .unsupportedAluOp op => op.setWidth 9

/-- Fault entry (R119): `status`, `fault_cause` and `fault_info` are written, nothing else changes; `pc` keeps the address
of the faulting instruction, no handler is entered, nothing is pushed (R125). There is no return from it (R126). -/
def State.raise (s : State) (f : Fault) : State :=
  { s with status := .faulted, faultCause := f.code, faultInfo := f.info }

/-- The end of a step of the opcode `op` begun in `s` (R73, R84): if the instruction raised, the fault entry from the state
before it; else its effect and then the loop's `pc` update, made on a halting step too (R80). -/
def complete (op : Byte) (s : State) (effect : Except Fault State) : Host.Outcome State Fault Refusal :=
  match effect with
  | .ok t => .next (t.updatePc op)
  | .error f => .next (s.raise f)

/-- A control opcode outside the table: the core halts, no operand byte is read, and the `pc` update is made
(R66, R78, R80, R121). -/
def haltUnknown (op : Byte) (s : State) : Host.Outcome State Fault Refusal :=
  .next ((s.halt .unknownOpcode).updatePc op)

end Sys2Proof.Machine
end

