-- ==== Sys2Proof/Machine/Flags.lean ====
section
/-! DEFINITION. The flags register FL (10_state.md R23 to R25) and the one computation that writes it (41_alu.md R90). -/

namespace Sys2Proof.Machine

/-- `FL_E`, the bit number of Equal (R5, R23). -/
def flE : Nat := 0

/-- `FL_G`, the bit number of Greater (R5, R23). -/
def flG : Nat := 1

/-- `FL_L`, the bit number of Less (R5, R23). -/
def flL : Nat := 2

/-- `FL[n] <- b`: one bit written, the others unchanged (R12). -/
def setFlag (fl : Byte) (n : Nat) (b : Bool) : Byte :=
  if b then fl ||| (1#8 <<< n) else fl &&& ~~~(1#8 <<< n)

/-- FL after `CMP` of the unsigned values `u` and `v`: L, G and E each from its own comparison, bits 7..3 unchanged
(R25, R90). -/
def compareFlags (fl u v : Byte) : Byte :=
  setFlag (setFlag (setFlag fl flL (u.toNat < v.toNat)) flG (u.toNat > v.toNat)) flE (u.toNat == v.toNat)

/-- FL is written by CMP alone (R24). -/
def State.setFl (s : State) (fl : Byte) : State := { s with fl := fl }

end Sys2Proof.Machine
end

