-- ==== Sys2Proof/Machine/Operands.lean ====
section
/-! DEFINITION. The operand forms of 42_control_data_stack.md R106: register direct (an operand byte names a register),
immediate (the byte itself), stack write and stack read (the primitives of R99 and R100). -/

namespace Sys2Proof.Machine

/-! ### Register direct (R59, R118) -/

/-- `CheckReg(i)`: an operand byte 0..7 selects a register, any other raises RegisterIndexFault; the byte is not masked
(R12, R59, R118, decision D4). -/
def checkReg (i : Byte) : Except Fault (Fin 8) :=
  if h : i.toNat < 8 then .ok ⟨i.toNat, h⟩ else .error (.registerIndexFault i)

/-! ### The stack (R18, R19) -/

/-- `x[7] <- (x[7] - 1) mod 256` (R19, R99). -/
def decSp (s : State) : State := s.writeReg Config.spIndex (s.sp - 1)

/-- `x[7] <- (x[7] + 1) mod 256` (R19, R100). -/
def incSp (s : State) : State := s.writeReg Config.spIndex (s.sp + 1)

/-- The address of the current top of the stack (R18): always in 0..255 (R19). -/
def stackAddress (s : State) : Nat := s.sp.toNat

/-- The selector of the pushed value (R99). -/
inductive PushSource where
  /-- A register, read after the decrement (PUSH). -/
  | reg (r : Fin 8)
  /-- An 8-bit value (CALL's return address). -/
  | val (v : Byte)
deriving DecidableEq, Repr

/-- The pushed value, a register source read in the given state (R99). -/
def PushSource.value : PushSource → State → Byte
  | .reg r, s => s.readReg r
  | .val v, _ => v

/-- `Push(src)`: SP is decremented first, a register source is read after the decrement, the cell is written last (R99). -/
def push (src : PushSource) (s : State) : Except Fault State :=
  memWrite (stackAddress (decSp s)) (src.value (decSp s)) (decSp s)

/-- The selector of a pop's destination (R100). -/
inductive PopDest where
  /-- A register (POP). -/
  | reg (r : Fin 8)
  /-- The program counter (RET). -/
  | pc
deriving DecidableEq, Repr

/-- The popped value put where the selector says (R100). -/
def PopDest.put : PopDest → Byte → State → State
  | .reg r, v, s => s.writeReg r v
  | .pc, v, s => s.jumpTo v

/-- `Pop(dst)`: the cell is read first, the destination written next, SP incremented last (R100). -/
def pop (dst : PopDest) (s : State) : Except Fault State :=
  match memRead (stackAddress s) s with
  | .ok v => .ok (incSp (dst.put v s))
  | .error f => .error f

end Sys2Proof.Machine
end

