-- ==== Sys2Proof/Machine/Alu.lean ====
section
/-! DEFINITION. The ALU instructions ADD, MUL, CMP (41_alu.md R87 to R95). -/

namespace Sys2Proof.Machine

/-- The ALU dispatcher after the opcode is recognised: `a` is checked before `b`, then the operation runs on the two
registers, both sources read before the destination is written (R87, R95). -/
def aluDispatch (op a b : Byte) (f : Fin 8 → Fin 8 → State → State) (s : State) : Host.Outcome State Fault Refusal :=
  complete op s (do
    let ra ← checkReg a
    let rb ← checkReg b
    pure (f ra rb s))

/-- `ADD a, b`: `x[a] <- (x[a] + x[b]) mod 256` (R88). -/
def execAdd (a b : Byte) (s : State) : Host.Outcome State Fault Refusal :=
  aluDispatch opcAdd a b (fun ra rb s => s.writeReg ra (s.readReg ra + s.readReg rb)) s

/-- `MUL a, b`: `x[a] <- (x[a] * x[b]) mod 256` (R89). -/
def execMul (a b : Byte) (s : State) : Host.Outcome State Fault Refusal :=
  aluDispatch opcMul a b (fun ra rb s => s.writeReg ra (s.readReg ra * s.readReg rb)) s

/-- `CMP a, b`: writes L, G and E of FL (R90). -/
def execCmp (a b : Byte) (s : State) : Host.Outcome State Fault Refusal :=
  aluDispatch opcCmp a b (fun ra rb s => s.setFl (compareFlags s.fl (s.readReg ra) (s.readReg rb))) s

end Sys2Proof.Machine
end

