-- ==== Sys2Proof/Machine/DataStack.lean ====
section
/-! DEFINITION. The control instructions for data, output, stack and halt: LDI, PRN, PUSH, POP, HLT
(42_control_data_stack.md R96 to R105). -/

namespace Sys2Proof.Machine

/-- `LDI r, imm`: `x[r] <- imm` (R97). -/
def execLdi (r imm : Byte) (s : State) : Host.Outcome State Fault Refusal :=
  complete opcLdi s (do
    let i ← checkReg r
    pure (s.writeReg i imm))

/-- `PRN r`: emits `x[r]` (R98). -/
def execPrn (r : Byte) (s : State) : Host.Outcome State Fault Refusal :=
  complete opcPrn s (do
    let i ← checkReg r
    pure (s.emit (s.readReg i)))

/-- `PUSH r` (R101): with `r = 7` the decremented SP is stored (R105; DEDUCED by the spec from the statement order, log
entry 16). -/
def execPush (r : Byte) (s : State) : Host.Outcome State Fault Refusal :=
  complete opcPush s (do
    let i ← checkReg r
    push (.reg i) s)

/-- `POP r` (R102): with `r = 7` SP is the popped value plus 1 (R105; log entry 16). -/
def execPop (r : Byte) (s : State) : Host.Outcome State Fault Refusal :=
  complete opcPop s (do
    let i ← checkReg r
    pop (.reg i) s)

/-- `HLT` (R103, R122); the `pc` update is made on the halting step too (R80, decision D8). -/
def execHlt (s : State) : Host.Outcome State Fault Refusal :=
  complete opcHlt s (pure (s.halt .hltInstruction))

end Sys2Proof.Machine
end

