-- ==== Sys2Proof/Machine/Transfer.lean ====
section
/-! DEFINITION. The control transfer instructions CALL, RET, JMP (43_control_transfer.md R107 to R114). All three have
bit 4 of the opcode set, so the loop adds nothing to `pc` (R79). -/

namespace Sys2Proof.Machine

/-- CALL's return address `pc + 2`, which must be an address (R107, decision D11). -/
def returnAddress (s : State) : Except Fault Byte :=
  let ra := s.pc.toNat + 2
  if ra < Config.memSize then .ok (BitVec.ofNat 8 ra) else .error (.addressFault ra)

/-- `CALL r`: the register index is checked, then the return address; the return address is pushed; `x[r]` is read after
the push (R107). -/
def execCall (r : Byte) (s : State) : Host.Outcome State Fault Refusal :=
  complete opcCall s (do
    let i ← checkReg r
    let ra ← returnAddress s
    let t ← push (.val ra) s
    pure (t.jumpTo (t.readReg i)))

/-- `RET`: pops `pc` (R108). -/
def execRet (s : State) : Host.Outcome State Fault Refusal :=
  complete opcRet s (pop .pc s)

/-- `JMP r`: `pc <- zext_9(x[r])`, unconditionally (R109). -/
def execJmp (r : Byte) (s : State) : Host.Outcome State Fault Refusal :=
  complete opcJmp s (do
    let i ← checkReg r
    pure (s.jumpTo (s.readReg i)))

end Sys2Proof.Machine
end

