-- ==== Sys2Proof/Machine/Fetch.lean ====
section
/-! DEFINITION. The fetch unit (40_step_cycle.md R74, R76, R77): the opcode at `pc`, then the operand bytes that the
dispatch route reads, lowest address first, each from the memory array at the moment of the step (20_memory.md R41, R49). -/

namespace Sys2Proof.Machine

/-- Read `n` operand bytes from `addr` on; the first address above 255 raises AddressFault (R45, R117). -/
def readOperands : Nat → Nat → State → Except Fault (List Byte)
  | 0, _, _ => .ok []
  | n + 1, addr, s => do
    let v ← memRead addr s
    let vs ← readOperands n (addr + 1) s
    pure (v :: vs)

/-- The bytes a step reads before it acts: the opcode (R74) and its operand bytes (R76, R77). All of them are read before
any write of the instruction (R41, decision D10). -/
def fetch (s : State) : Except Fault (List Byte) := do
  let op ← memRead s.pc.toNat s
  let operands ← readOperands (operandBytes op) (s.pc.toNat + 1) s
  pure (op :: operands)

end Sys2Proof.Machine
end

