-- ==== Sys2Proof/Machine/Cycle.lean ====
section
/-! DEFINITION. One step of the engine (40_step_cycle.md R73, R82, R83): fetch, decode, dispatch. The loop's `pc` update
(R79) is the end of every instruction's meaning (`complete` in Ops.lean). -/

namespace Sys2Proof.Machine

/-- `Step()` of R73, defined when the engine is Running. -/
def runInstruction (s : State) : Host.Outcome State Fault Refusal :=
  match fetch s with
  | .error f => .next (s.raise f)
  | .ok bytes =>
    match decode bytes with
    | .instr i _ => exec i s
    | .unknownControl op => haltUnknown op s
    | .unsupportedAlu op => .next (s.raise (.unsupportedAluOp op))
    | .truncated k => .next (s.raise (.addressFault (s.pc.toNat + k)))

/-- The engine as a state machine on `status` (R82): when Running it performs one step; when Halted or Faulted it performs
no step and no state changes, so the state is held as it is (R83, R140; DEDUCED, log entry 1). -/
def cycle (s : State) : Host.Outcome State Fault Refusal :=
  match s.status with
  | .running => runInstruction s
  | .halted => .next s
  | .faulted => .next s

end Sys2Proof.Machine
end

