-- ==== Sys2Proof/Machine/Step.lean ====
section
/-! DEFINITION. The step function, and the placing of one instruction where the step fetches it. -/

namespace Sys2Proof.Machine

/-- One step of the machine (R73, R83). -/
def step (s : State) : Host.Outcome State Fault Refusal := cycle s

/-- `s` with the instruction of a table word stored at `pc`, where the next step fetches (R74); nothing else changes. It
stands for the host's load (R9, R137; log entry 13). -/
def State.withFetchWord (s : State) (nbits w : Nat) : State := storeBytes s.pc.toNat (tableBytes nbits w) s

end Sys2Proof.Machine
end

