-- ==== Sys2Proof/Machine/Interface.lean ====
section
/-! DEFINITION. The transaction-level interfaces of 00_scope.md R9 beside `out` (a field of State): reset, load, step
enable, status, debug read. The host acts through load before the first step only, and has no write move during a run
(R9, decision D20). -/

namespace Sys2Proof.Machine

/-- `reset`: every piece of state at its reset value, the whole previous state lost (R135). -/
def State.hostReset (_ : State) (startPc : Byte) : State := State.resetAt startPc

/-- `load` of one cell: `M[a] <- v`, `a` in 0..255 (R9). -/
def State.loadCell (s : State) (cell : Byte × Byte) : State := s.writeCell cell.1.toNat cell.2

/-- `load` of an image, cell by cell (R9, R137). -/
def State.loadImage (s : State) (image : List (Byte × Byte)) : State := image.foldl State.loadCell s

/-- The launch state (R137): reset, the image in memory, `pc = START_PC`. -/
def State.launch (image : List (Byte × Byte)) (startPc : Byte) : State := (State.resetAt startPc).loadImage image

/-- `step enable`: while it is asserted the engine steps; the host may withhold it at any instruction boundary, and that
changes nothing (R9, R141). -/
def stepIfEnabled (enable : Bool) (s : State) : Host.Outcome State Fault Refusal :=
  if enable then step s else .next s

/-- What the `status` interface shows. The spec's rules differ on it: R9's row has the four status registers, R24 adds FL, and
R26 says of a list with `pc` and FL in it that the host sees them there. The model shows all that any of the three rules
names (DESIGN CHOICE, log entry 27). -/
structure StatusPort where
  pc : Addr9
  fl : Byte
  status : Status
  haltCause : HaltCause
  faultCause : BitVec 2
  faultInfo : BitVec 9
deriving DecidableEq, Repr

/-- The `status` interface: a read of the state as it is (R9, R24, R26). -/
def State.statusPort (s : State) : StatusPort := 
  ⟨s.pc, s.fl, s.status, s.haltCause, s.faultCause, s.faultInfo⟩

/-- What the `debug read` interface shows: the traced values of R133, and all state (R9), FL among it (R24). -/
structure DebugView where
  pc : Addr9
  bytes : List (Option Byte)
  x : Vector Byte 8
  allState : State
deriving DecidableEq, Repr

/-- A cell as the host's debug read shows it: nothing above address 255, where the spec does not say what is shown
(R133, N11; DESIGN CHOICE, log entry 20). It is no access of the core and raises no fault. -/
def State.peek (s : State) (addr : Nat) : Option Byte :=
  if addr < Config.memSize then some (Memory.read s.mem addr) else none

/-- The `debug read` interface: read-only, no effect on state (R9, R133). -/
def State.debugRead (s : State) : DebugView :=
  ⟨s.pc, [s.peek s.pc.toNat, s.peek (s.pc.toNat + 1), s.peek (s.pc.toNat + 2)], s.x, s⟩

end Sys2Proof.Machine
end

