-- ==== Sys2Proof/Safety.lean ====
section
/-! DEFINITION. The terms that claims about the core use: what a step keeps, what a fault leaves and in which order faults
are looked for, which runs are good, the states a run can reach, and the invariant of every such state. -/

namespace Sys2Proof

open Machine

/-! ### Operands -/

/-- The operand byte `r` selects register `i` (R59). -/
abbrev Selects (r : Byte) (i : Fin 8) : Prop := r.toNat = i.val

/-- The operand byte selects no register (R59). -/
abbrev NoRegister (r : Byte) : Prop := 8 ≤ r.toNat

/-! ### What a step keeps -/

/-- Every register outside the list is unchanged. -/
def RegsKeptBut (changed : List (Fin 8)) (s t : State) : Prop := ∀ i, i ∉ changed → t.readReg i = s.readReg i

/-- Every cell is unchanged but the one at the address. -/
def MemoryKeptBut (addr : Nat) (s t : State) : Prop := ∀ a, a ≠ addr → Memory.read t.mem a = Memory.read s.mem a

/-- Every cell is unchanged. -/
def MemoryKept (s t : State) : Prop := ∀ a, Memory.read t.mem a = Memory.read s.mem a

/-- The fault registers are unchanged: `fault_cause` and `fault_info`. -/
abbrev FaultRecordKept (s t : State) : Prop := t.faultCause = s.faultCause ∧ t.faultInfo = s.faultInfo

/-- The status registers are unchanged: `status`, `halt_cause`, `fault_cause`, `fault_info`. -/
abbrev StatusKept (s t : State) : Prop := t.status = s.status ∧ t.haltCause = s.haltCause ∧ FaultRecordKept s t

/-! ### Faults and halts -/

/-- `t` is the state a `raise` of `f` leaves, from the state `s` before the faulting instruction (60_exceptions.md R119):
`status` Faulted, the cause and the info of R116, everything else as in `s`. -/
def Raised (f : Fault) (s t : State) : Prop :=
  t.status = .faulted ∧
  (match f with
    | .addressFault addr => t.faultCause = 1 ∧ t.faultInfo = BitVec.ofNat 9 addr
    | .registerIndexFault i => t.faultCause = 2 ∧ t.faultInfo = i.setWidth 9
    | .unsupportedAluOp op => t.faultCause = 3 ∧ t.faultInfo = op.setWidth 9) ∧
  t.x = s.x ∧ t.pc = s.pc ∧ t.fl = s.fl ∧ t.haltCause = s.haltCause ∧ t.mem = s.mem ∧ t.out = s.out

/-- The run has failed: never a successful final state (R140). -/
abbrev FailedRun (s : State) : Prop := s.status = .faulted

/-- The normal end of a run (R140). -/
abbrev EndedByHlt (s : State) : Prop := s.status = .halted ∧ s.haltCause = .hltInstruction

/-- The opcode bytes of the control dispatch table, written out (R61, R78). -/
def controlBytes : List Byte := [0x01, 0x11, 0x45, 0x46, 0x47, 0x50, 0x54, 0x82]

/-- The opcode bytes of the ALU dispatcher, written out (R61, R87). -/
def aluBytes : List Byte := [0xA0, 0xA2, 0xA7]

/-- The first fault that applies to a step of a Running core, in the fixed order of 60_exceptions.md R123, read from the
list of that rule. -/
def firstFault (s : State) : Option Fault :=
  let pc := s.pc.toNat
  let op := Memory.read s.mem pc
  let operand0 := Memory.read s.mem (pc + 1)
  let operand1 := Memory.read s.mem (pc + 2)
  if 255 < pc then some (.addressFault pc)
  else if op.getLsbD 5 then
    if pc = 255 then some (.addressFault 256)
    else if pc = 254 then some (.addressFault 256)
    else if op ∉ aluBytes then some (.unsupportedAluOp op)
    else if 7 < operand0.toNat then some (.registerIndexFault operand0)
    else if 7 < operand1.toNat then some (.registerIndexFault operand1)
    else none
  else if op = 0x01 ∨ op = 0x11 then none
  else if op ∈ controlBytes then
    if pc = 255 then some (.addressFault 256)
    else if op = 0x82 ∧ pc = 254 then some (.addressFault 256)
    else if 7 < operand0.toNat then some (.registerIndexFault operand0)
    else if op = 0x50 ∧ pc = 254 then some (.addressFault 256)
    else none
  else none

/-! ### Instructions in memory -/

/-- The bytes stand in memory from `pc` on, all of them at addresses 0..255. -/
def BytesAtPc (bs : List Byte) (s : State) : Prop :=
  s.pc.toNat + bs.length ≤ 256 ∧ ∀ k (h : k < bs.length), Memory.read s.mem (s.pc.toNat + k) = bs[k]

/-- The engine is Running and the opcode byte at `pc`, an address of memory, is `op`. -/
abbrev OpcodeAtPc (op : Byte) (s : State) : Prop :=
  s.status = .running ∧ s.pc.toNat ≤ 255 ∧ Memory.read s.mem s.pc.toNat = op

/-- A table word (bit 0 the least significant bit of the first byte) made of the bytes. -/
def wordOfBytes (bs : List Byte) : Nat := bs.foldr (fun b w => b.toNat + 256 * w) 0

/-! ### Faults that instructions of one format share -/

/-- The faults of a format RR instruction (R88): a bad `a`, else a bad `b`, and an operand byte beyond address 255. -/
def RegisterPairFaults (mk : Byte → Byte → Instr) (op a b : Byte) (s : State) : Prop :=
  (NoRegister a → ∃ t, exec (mk a b) s = .next t ∧ Raised (.registerIndexFault a) s t) ∧
  (¬ NoRegister a → NoRegister b → ∃ t, exec (mk a b) s = .next t ∧ Raised (.registerIndexFault b) s t) ∧
  (OpcodeAtPc op s → 254 ≤ s.pc.toNat → ∃ t, step s = .next t ∧ Raised (.addressFault 256) s t)

/-- The faults of a control instruction `i` with the register operand `r`: a bad `r`, and an operand byte beyond address
255, met from `pc = top` on (R97, R98, R101, R102, R107, R109). -/
def RegisterFaults (i : Instr) (op r : Byte) (top : Nat) (s : State) : Prop :=
  (NoRegister r → ∃ t, exec i s = .next t ∧ Raised (.registerIndexFault r) s t) ∧
  (OpcodeAtPc op s → top ≤ s.pc.toNat → ∃ t, step s = .next t ∧ Raised (.addressFault 256) s t)

/-! ### Runs -/

/-- The states of the runs from a launch state (R137, R83): any image, any start address, any number of steps. -/
inductive Reachable : State → Prop where
  | launch (image : List (Byte × Byte)) (startPc : Byte) : Reachable (State.launch image startPc)
  | step {s t : State} : Reachable s → Machine.step s = .next t → Reachable t

/-- The two states agree on all that a step of the core reads: registers, `pc`, `status`, memory. -/
abbrev SameInputs (s u : State) : Prop := u.x = s.x ∧ u.pc = s.pc ∧ u.status = s.status ∧ u.mem = s.mem

/-! ### The invariant -/

/-- FL has one of its four reachable values (R25): no CMP yet, or exactly one of E, G, L. -/
abbrev FlagsLegal (s : State) : Prop := s.fl = 0 ∨ s.fl = 1 ∨ s.fl = 2 ∨ s.fl = 4

/-- `status`, `pc` and the cause registers agree: a Running core has `pc` at most 256 and no cause (R20, R27 to R29); a
Halted one has a halt cause, no fault, and `pc` at most 259 (R20, R28, R80); a Faulted one has a fault cause, no halt cause,
`pc` at most 256, and the info that R30 and R117 give for its cause. -/
def StatusCoherent (s : State) : Prop :=
  match s.status with
  | .running => s.pc.toNat ≤ 256 ∧ s.haltCause = .none ∧ s.faultCause = 0 ∧ s.faultInfo = 0
  | .halted => s.pc.toNat ≤ 259 ∧ s.haltCause ≠ .none ∧ s.faultCause = 0 ∧ s.faultInfo = 0
  | .faulted => s.pc.toNat ≤ 256 ∧ s.haltCause = .none ∧
      ((s.faultCause = 1 ∧ s.faultInfo = 256) ∨
       (s.faultCause = 2 ∧ 8 ≤ s.faultInfo.toNat ∧ s.faultInfo.toNat ≤ 255) ∨
       (s.faultCause = 3 ∧ ∃ op : Byte, s.faultInfo = op.setWidth 9 ∧ op.getLsbD 5 = true ∧ op ∉ aluBytes))

/-- The invariant of every state of a run: canonical memory, legal flags, coherent status registers. -/
def CoreInv (s : State) : Prop := Memory.wf s.mem = true ∧ FlagsLegal s ∧ StatusCoherent s

end Sys2Proof
end

