-- ==== Sys2Proof/Certificates/Slice0/Obligations.lean ====
section
/-! DEFINITION. The statements for the provers, from the numbered rules of spec/. A register value or address the spec
computes is stated on natural numbers where the rule writes `mod 256`. -/

open Sys2Proof Sys2Proof.Machine

/-! ### Encoding -/

/-- The opcode bytes of R61, each with operand bytes, decode to the instructions they stand for (bits 3..0 of the opcodes
are the spec's decision D1, log entry 2). -/
def Obligations.OpcodeBytesDecode : Prop :=
  decode [0xA0, 0x01, 0x02] = .instr (.add 1 2) [] ∧
  decode [0xA2, 0x00, 0x07] = .instr (.mul 0 7) [] ∧
  decode [0xA7, 0x03, 0x04] = .instr (.cmp 3 4) [] ∧
  decode [0x82, 0x00, 0x2A] = .instr (.ldi 0 42) [] ∧
  decode [0x47, 0x05] = .instr (.prn 5) [] ∧
  decode [0x45, 0x06] = .instr (.push 6) [] ∧
  decode [0x46, 0x07] = .instr (.pop 7) [] ∧
  decode [0x01] = .instr .hlt [] ∧
  decode [0x50, 0x01] = .instr (.call 1) [] ∧
  decode [0x11] = .instr .ret [] ∧
  decode [0x54, 0x02] = .instr (.jmp 2) []

/-- Decode and encode agree in both directions, for every instruction with every operand byte: bytes decode to `i` with the
rest `rest` exactly when they are the encoding of `i` followed by `rest`. -/
def Obligations.DecodeIffEncoded : Prop :=
  ∀ (bs rest : List Byte) (i : Instr), decode bs = .instr i rest ↔ bs = encode i ++ rest

/-- The census of R68: with two operand bytes at hand, every one of the 256 opcode bytes has exactly the outcome that its
bit 5 and the table of R61 give. -/
def Obligations.EveryOpcodeHasItsOutcome : Prop :=
  ∀ (op a b : Byte) (rest : List Byte),
    ((∃ i tail, decode (op :: a :: b :: rest) = .instr i tail) ↔ op ∈ aluBytes ++ controlBytes) ∧
    (decode (op :: a :: b :: rest) = .unsupportedAlu op ↔ op.getLsbD 5 = true ∧ op ∉ aluBytes) ∧
    (decode (op :: a :: b :: rest) = .unknownControl op ↔ op.getLsbD 5 = false ∧ op ∉ controlBytes)

/-- A table word made of an instruction's bytes decodes to it, and placed where the step fetches it runs as it. The layout of
a table word (first byte lowest, zeros above its bits, nothing stored above address 255) is the model's choice (DESIGN CHOICE,
log entry 21), and placing it stands for the host's load (log entry 13); no rule of the spec speaks of table words. -/
def Obligations.TableWordDecodesAndRuns : Prop :=
  ∀ (i : Instr) (s : State),
    decodeTableWord (8 * (encode i).length) (wordOfBytes (encode i)) = some i ∧
    (s.status = .running → s.pc.toNat + (encode i).length ≤ 256 → Memory.wf s.mem = true →
      step (s.withFetchWord (8 * (encode i).length) (wordOfBytes (encode i))) =
        exec i (s.withFetchWord (8 * (encode i).length) (wordOfBytes (encode i))))

/-! ### Reset and launch -/

/-- The reset table of R33, with the start address as the parameter it is (the values of `pc`, FL, `status` and the cause
registers are the spec's decisions D5, D7, D13). -/
def Obligations.ResetStateValues : Prop :=
  ∀ startPc : Byte,
    (∀ i : Fin 8, ((State.resetAt startPc).readReg i).toNat = if i = 7 then 0xF4 else 0) ∧
    (State.resetAt startPc).pc.toNat = startPc.toNat ∧
    (State.resetAt startPc).fl = 0 ∧
    (State.resetAt startPc).status = .running ∧
    (State.resetAt startPc).haltCause = .none ∧
    (State.resetAt startPc).faultCause = 0 ∧
    (State.resetAt startPc).faultInfo = 0 ∧
    (∀ a, Memory.read (State.resetAt startPc).mem a = 0) ∧
    (State.resetAt startPc).out = [] ∧
    State.reset = State.resetAt 0

/-- The launch state of R137: a cell the image covers holds the last byte loaded into it, every other cell is 0, and all
else is as after reset. -/
def Obligations.LaunchStateHoldsImage : Prop :=
  ∀ (image : List (Byte × Byte)) (startPc : Byte),
    (∀ a : Byte, Memory.read (State.launch image startPc).mem a.toNat =
      match image.reverse.find? (fun c => c.1 == a) with
      | some c => c.2
      | none => 0) ∧
    (State.launch image startPc).x = (State.resetAt startPc).x ∧
    (State.launch image startPc).pc.toNat = startPc.toNat ∧
    (State.launch image startPc).fl = 0 ∧
    StatusKept (State.resetAt startPc) (State.launch image startPc) ∧
    (State.launch image startPc).out = []

/-! ### The ALU instructions -/

/-- R88: `ADD a, b`. -/
def Obligations.AddWritesSumModulo256 : Prop :=
  ∀ (s : State) (a b : Byte),
    encode (.add a b) = [0xA0, a, b] ∧
    (∀ i j : Fin 8, Selects a i → Selects b j →
      ∃ t, exec (.add a b) s = .next t ∧
        (t.readReg i).toNat = ((s.readReg i).toNat + (s.readReg j).toNat) % 256 ∧
        RegsKeptBut [i] s t ∧ t.fl = s.fl ∧ MemoryKept s t ∧ t.out = s.out ∧ StatusKept s t ∧ t.pc = s.pc + 3) ∧
    RegisterPairFaults .add 0xA0 a b s

/-- R89: `MUL a, b`. -/
def Obligations.MulWritesProductModulo256 : Prop :=
  ∀ (s : State) (a b : Byte),
    encode (.mul a b) = [0xA2, a, b] ∧
    (∀ i j : Fin 8, Selects a i → Selects b j →
      ∃ t, exec (.mul a b) s = .next t ∧
        (t.readReg i).toNat = ((s.readReg i).toNat * (s.readReg j).toNat) % 256 ∧
        RegsKeptBut [i] s t ∧ t.fl = s.fl ∧ MemoryKept s t ∧ t.out = s.out ∧ StatusKept s t ∧ t.pc = s.pc + 3) ∧
    RegisterPairFaults .mul 0xA2 a b s

/-- R90: `CMP a, b` writes L, G and E, each from its own unsigned comparison, and keeps bits 7..3 of FL. -/
def Obligations.CmpWritesThreeFlags : Prop :=
  ∀ (s : State) (a b : Byte),
    encode (.cmp a b) = [0xA7, a, b] ∧
    (∀ i j : Fin 8, Selects a i → Selects b j →
      ∃ t, exec (.cmp a b) s = .next t ∧
        t.fl.getLsbD 2 = decide ((s.readReg i).toNat < (s.readReg j).toNat) ∧
        t.fl.getLsbD 1 = decide ((s.readReg i).toNat > (s.readReg j).toNat) ∧
        t.fl.getLsbD 0 = decide ((s.readReg i).toNat = (s.readReg j).toNat) ∧
        (∀ k, 3 ≤ k → t.fl.getLsbD k = s.fl.getLsbD k) ∧
        RegsKeptBut [] s t ∧ MemoryKept s t ∧ t.out = s.out ∧ StatusKept s t ∧ t.pc = s.pc + 3) ∧
    RegisterPairFaults .cmp 0xA7 a b s

/-- The fourth testable property of the source (95_test_vectors.md S4): from flags with bits 7..3 clear, CMP leaves exactly
one of the three bits set, E exactly when the registers match, and with the operands swapped L and G change places. -/
def Obligations.CmpSwapExchangesLessAndGreater : Prop :=
  ∀ (s : State) (a b : Byte) (i j : Fin 8), Selects a i → Selects b j → FlagsLegal s →
    ∃ t u, exec (.cmp a b) s = .next t ∧ exec (.cmp b a) s = .next u ∧
      (t.fl = 1 ↔ s.readReg i = s.readReg j) ∧ (t.fl = 1 ↔ u.fl = 1) ∧
      (t.fl = 2 ↔ u.fl = 4) ∧ (t.fl = 4 ↔ u.fl = 2) ∧
      (t.fl = 1 ∨ t.fl = 2 ∨ t.fl = 4)

/-! ### Data, output, stack, halt -/

/-- R97: `LDI r, imm`. -/
def Obligations.LdiLoadsImmediate : Prop :=
  ∀ (s : State) (r imm : Byte),
    encode (.ldi r imm) = [0x82, r, imm] ∧
    (∀ i : Fin 8, Selects r i →
      ∃ t, exec (.ldi r imm) s = .next t ∧ t.readReg i = imm ∧
        RegsKeptBut [i] s t ∧ t.fl = s.fl ∧ MemoryKept s t ∧ t.out = s.out ∧ StatusKept s t ∧ t.pc = s.pc + 3) ∧
    RegisterFaults (.ldi r imm) 0x82 r 254 s

/-- R98: `PRN r`. -/
def Obligations.PrnEmitsRegister : Prop :=
  ∀ (s : State) (r : Byte),
    encode (.prn r) = [0x47, r] ∧
    (∀ i : Fin 8, Selects r i →
      ∃ t, exec (.prn r) s = .next t ∧ t.out = s.out ++ [s.readReg i] ∧
        RegsKeptBut [] s t ∧ t.fl = s.fl ∧ MemoryKept s t ∧ StatusKept s t ∧ t.pc = s.pc + 2) ∧
    RegisterFaults (.prn r) 0x47 r 255 s

/-- The push primitive of R99: SP goes down by 1 modulo 256 first, a register source is read after that, the cell at the new
SP receives the value, and nothing else changes; it never faults. The memory's canonical form is what makes a write read
back; every step keeps it (`StepKeepsCanonicalMemory`). -/
def Obligations.PushDecrementsThenStores : Prop :=
  ∀ (s : State) (src : PushSource), Memory.wf s.mem = true →
    ∃ t, push src s = .ok t ∧
      t.sp.toNat = (s.sp.toNat + 255) % 256 ∧
      Memory.read t.mem t.sp.toNat = (match src with
        | .reg r => t.readReg r
        | .val v => v) ∧
      RegsKeptBut [7] s t ∧ MemoryKeptBut (stackAddress (decSp s)) s t ∧ stackAddress (decSp s) = t.sp.toNat ∧
      t.pc = s.pc ∧ t.fl = s.fl ∧ t.out = s.out ∧ StatusKept s t

/-- The pop primitive of R100: the cell at SP is read first, the destination written next, SP goes up by 1 modulo 256 last;
the popped cell keeps its value; it never faults. That a pop to register 7 leaves the popped value plus 1 is what the spec
derives from that order (R102, R105; log entry 16). -/
def Obligations.PopReadsThenIncrements : Prop :=
  ∀ (s : State) (dst : PopDest),
    ∃ t, pop dst s = .ok t ∧
      (match dst with
        | .reg r =>
          (if r = 7 then t.sp.toNat = ((Memory.read s.mem s.sp.toNat).toNat + 1) % 256
           else t.readReg r = Memory.read s.mem s.sp.toNat ∧ t.sp.toNat = (s.sp.toNat + 1) % 256) ∧
          RegsKeptBut [r, 7] s t ∧ t.pc = s.pc
        | .pc =>
          t.pc.toNat = (Memory.read s.mem s.sp.toNat).toNat ∧ t.sp.toNat = (s.sp.toNat + 1) % 256 ∧
          RegsKeptBut [7] s t) ∧
      MemoryKept s t ∧ t.fl = s.fl ∧ t.out = s.out ∧ StatusKept s t

/-- R101: `PUSH r`. With `r = 7` the decremented SP is stored, which the spec derives from the statement order (R105, log
entry 16). The cell stored to is at `stackAddress (decSp s)`, the address the meaning computes. -/
def Obligations.PushStoresBelowStackPointer : Prop :=
  ∀ (s : State) (r : Byte),
    encode (.push r) = [0x45, r] ∧
    (∀ i : Fin 8, Selects r i →
      ∃ t, exec (.push r) s = .next t ∧
        t.sp.toNat = (s.sp.toNat + 255) % 256 ∧ RegsKeptBut [7] s t ∧
        stackAddress (decSp s) = (s.sp.toNat + 255) % 256 ∧
        MemoryKeptBut (stackAddress (decSp s)) s t ∧
        (Memory.wf s.mem = true →
          Memory.read t.mem (stackAddress (decSp s)) = if i = 7 then s.sp - 1 else s.readReg i) ∧
        t.fl = s.fl ∧ t.out = s.out ∧ StatusKept s t ∧ t.pc = s.pc + 2) ∧
    RegisterFaults (.push r) 0x45 r 255 s

/-- R102: `POP r`. With `r = 7` SP is the popped value plus 1, which the spec derives from the statement order (R105, log
entry 16). -/
def Obligations.PopLoadsFromStackPointer : Prop :=
  ∀ (s : State) (r : Byte),
    encode (.pop r) = [0x46, r] ∧
    (∀ i : Fin 8, Selects r i →
      ∃ t, exec (.pop r) s = .next t ∧
        (i ≠ 7 → t.readReg i = Memory.read s.mem s.sp.toNat ∧ t.sp.toNat = (s.sp.toNat + 1) % 256) ∧
        (i = 7 → t.sp.toNat = ((Memory.read s.mem s.sp.toNat).toNat + 1) % 256) ∧
        RegsKeptBut [i, 7] s t ∧ MemoryKept s t ∧ t.fl = s.fl ∧ t.out = s.out ∧ StatusKept s t ∧ t.pc = s.pc + 2) ∧
    RegisterFaults (.pop r) 0x46 r 255 s

/-- R103: `HLT`. The `pc` update on the halting step is the spec's decision D8 (log entry 10). -/
def Obligations.HltStopsTheCore : Prop :=
  ∀ s : State,
    encode .hlt = [0x01] ∧
    ∃ t, exec .hlt s = .next t ∧ EndedByHlt t ∧
      RegsKeptBut [] s t ∧ MemoryKept s t ∧ t.fl = s.fl ∧ t.out = s.out ∧ FaultRecordKept s t ∧ t.pc = s.pc + 1

/-- R104: the balanced pair. After `PUSH r`, a `POP r'` in any state with that SP and that cell gives the pushed value to
`r'` and takes SP back; with `r = 7` the pushed value is the decremented SP, with `r' = 7` SP ends as the value plus 1. -/
def Obligations.PushThenPopRestoresValue : Prop :=
  ∀ (s t u : State) (r r' : Byte) (i j : Fin 8),
    Selects r i → Selects r' j → Memory.wf s.mem = true → exec (.push r) s = .next t →
    u.sp = t.sp → Memory.read u.mem u.sp.toNat = Memory.read t.mem t.sp.toNat →
    ∃ v, exec (.pop r') u = .next v ∧
      (j ≠ 7 → v.readReg j = (if i = 7 then s.sp - 1 else s.readReg i) ∧ v.sp = s.sp) ∧
      (j = 7 → v.sp = (if i = 7 then s.sp - 1 else s.readReg i) + 1)

/-! ### Control transfer -/

/-- R107: `CALL r`. The fault on a return address of 256 is the spec's decision D11; with `r = 7` the target is the
decremented SP, which the spec derives from the statement order (log entry 16). -/
def Obligations.CallPushesReturnAddress : Prop :=
  ∀ (s : State) (r : Byte),
    encode (.call r) = [0x50, r] ∧
    (∀ i : Fin 8, Selects r i → s.pc.toNat ≤ 253 →
      ∃ t, exec (.call r) s = .next t ∧
        t.sp.toNat = (s.sp.toNat + 255) % 256 ∧ RegsKeptBut [7] s t ∧
        stackAddress (decSp s) = (s.sp.toNat + 255) % 256 ∧
        MemoryKeptBut (stackAddress (decSp s)) s t ∧
        (Memory.wf s.mem = true → (Memory.read t.mem (stackAddress (decSp s))).toNat = s.pc.toNat + 2) ∧
        t.pc.toNat = (if i = 7 then (s.sp.toNat + 255) % 256 else (s.readReg i).toNat) ∧
        t.fl = s.fl ∧ t.out = s.out ∧ StatusKept s t) ∧
    (∀ i : Fin 8, Selects r i → 254 ≤ s.pc.toNat →
      ∃ t, exec (.call r) s = .next t ∧ Raised (.addressFault (s.pc.toNat + 2)) s t) ∧
    RegisterFaults (.call r) 0x50 r 255 s

/-- R108: `RET`. -/
def Obligations.RetPopsProgramCounter : Prop :=
  ∀ s : State,
    encode .ret = [0x11] ∧
    ∃ t, exec .ret s = .next t ∧
      t.pc.toNat = (Memory.read s.mem s.sp.toNat).toNat ∧ t.sp.toNat = (s.sp.toNat + 1) % 256 ∧
      RegsKeptBut [7] s t ∧ MemoryKept s t ∧ t.fl = s.fl ∧ t.out = s.out ∧ StatusKept s t

/-- R109: `JMP r`. -/
def Obligations.JmpLoadsProgramCounter : Prop :=
  ∀ (s : State) (r : Byte),
    encode (.jmp r) = [0x54, r] ∧
    (∀ i : Fin 8, Selects r i →
      ∃ t, exec (.jmp r) s = .next t ∧ t.pc.toNat = (s.readReg i).toNat ∧
        RegsKeptBut [] s t ∧ MemoryKept s t ∧ t.fl = s.fl ∧ t.out = s.out ∧ StatusKept s t) ∧
    RegisterFaults (.jmp r) 0x54 r 255 s

/-- R113: the call and return pair. After a CALL, a RET in any state with that SP and that cell resumes at the CALL's
address plus 2 and takes SP back. -/
def Obligations.CallThenRetReturns : Prop :=
  ∀ (s t u : State) (r : Byte) (i : Fin 8),
    Selects r i → s.pc.toNat ≤ 253 → Memory.wf s.mem = true → exec (.call r) s = .next t →
    u.sp = t.sp → Memory.read u.mem u.sp.toNat = Memory.read t.mem t.sp.toNat →
    ∃ v, exec .ret u = .next v ∧ v.pc.toNat = s.pc.toNat + 2 ∧ v.sp = s.sp

/-! ### Opcodes outside the table, and the fetch -/

/-- R91: an ALU-flagged opcode that is not ADD, MUL or CMP faults after both operand bytes are read; there are 125. -/
def Obligations.UnsupportedAluOpcodeFaults : Prop :=
  (∀ (s : State) (op : Byte), OpcodeAtPc op s → op.getLsbD 5 = true → op ∉ aluBytes →
    ∃ t, step s = .next t ∧
      Raised (if s.pc.toNat ≤ 253 then .unsupportedAluOp op else .addressFault 256) s t) ∧
  (((List.range 256).map (BitVec.ofNat 8)).filter (fun op => op.getLsbD 5 && !aluBytes.contains op)).length = 125

/-- R66: an opcode with bit 5 clear outside the control table halts the core without a fault, wherever it stands, reads no
operand byte, and changes nothing but `status`, `halt_cause` and `pc`; there are 120. The `pc` update on the halting step
and the length 4 are the spec's decisions D8 and D9 (log entry 10). -/
def Obligations.UnknownControlOpcodeHalts : Prop :=
  (∀ (s : State) (op : Byte), OpcodeAtPc op s → op.getLsbD 5 = false → op ∉ controlBytes →
    ∃ t, step s = .next t ∧ t.status = .halted ∧ t.haltCause = .unknownOpcode ∧
      RegsKeptBut [] s t ∧ MemoryKept s t ∧ t.fl = s.fl ∧ t.out = s.out ∧ FaultRecordKept s t ∧
      t.pc.toNat = if op.getLsbD 4 then s.pc.toNat else s.pc.toNat + op.toNat / 64 + 1) ∧
  (((List.range 256).map (BitVec.ofNat 8)).filter (fun op => !op.getLsbD 5 && !controlBytes.contains op)).length = 120

/-- R74: a step of a Running core whose `pc` is no address raises AddressFault with `pc` as its info (decision D2). -/
def Obligations.FetchBeyondMemoryFaults : Prop :=
  ∀ s : State, s.status = .running → 255 < s.pc.toNat →
    ∃ t, step s = .next t ∧ Raised (.addressFault s.pc.toNat) s t ∧ t.faultInfo = s.pc

/-- R45: an access to an address above 255 raises AddressFault with the address; one at 0..255 reads the cell, and a write
is read back and leaves every other cell alone. -/
def Obligations.AccessIsCheckedAndReadsBack : Prop :=
  ∀ (s : State) (addr : Nat) (v : Byte),
    (255 < addr → memRead addr s = .error (.addressFault addr) ∧ memWrite addr v s = .error (.addressFault addr)) ∧
    (addr ≤ 255 → memRead addr s = .ok (Memory.read s.mem addr) ∧
      ∃ t, memWrite addr v s = .ok t ∧ MemoryKeptBut addr s t ∧
        (Memory.wf s.mem = true → memRead addr t = .ok v ∧ Memory.wf t.mem = true))

/-! ### The step -/

/-- R73: when the engine is Running and the bytes at `pc` are those of an instruction, the step is that instruction's
meaning, the loop's `pc` update included in it. -/
def Obligations.StepRunsDecodedInstruction : Prop :=
  ∀ (s : State) (i : Instr), s.status = .running → BytesAtPc (encode i) s → step s = exec i s

/-- No step of this machine ends in a fault outcome or a refusal: every state has a next state (faults are taken as next
states, R119; log entry 7). -/
def Obligations.EveryStepAnswersNext : Prop := ∀ s : State, ∃ t, step s = .next t

/-- R123: a step of a Running core takes the first fault of the fixed order, and no fault when none applies. -/
def Obligations.FaultsFollowFixedOrder : Prop :=
  ∀ s : State, s.status = .running →
    ∃ t, step s = .next t ∧
      match firstFault s with
      | some f => Raised f s t
      | none => ¬ FailedRun t

/-- R82: the transitions of `status`. From Running a step halts exactly on HLT or on an unknown control opcode, with the
cause of each, and faults exactly by a `raise`; no step leaves Halted or Faulted. -/
def Obligations.StatusTransitions : Prop :=
  ∀ s t : State, step s = .next t →
    (s.status ≠ .running → t.status = s.status) ∧
    (s.status = .running →
      (t.status = .halted ↔ s.pc.toNat ≤ 255 ∧
        (Memory.read s.mem s.pc.toNat = 0x01 ∨
          ((Memory.read s.mem s.pc.toNat).getLsbD 5 = false ∧ Memory.read s.mem s.pc.toNat ∉ controlBytes))) ∧
      (t.status = .halted → t.haltCause =
        if Memory.read s.mem s.pc.toNat = 0x01 then .hltInstruction else .unknownOpcode) ∧
      (t.status = .faulted ↔ ∃ f, Raised f s t) ∧
      (t.status = .running → StatusKept s t))

/-- R127: Halted and Faulted are terminal. However many steps the engine is given, the state is held (that a step of a
stopped engine is the identity is the model's form of R83's "performs no step", log entry 1); reset discards the whole
state; no step clears a cause. -/
def Obligations.StoppedStatesAreTerminal : Prop :=
  (∀ (n : Nat) (s : State), s.status ≠ .running → Sys2Proof.core.run n s = .next s) ∧
  (∀ (s : State) (startPc : Byte), s.hostReset startPc = State.resetAt startPc) ∧
  (∀ s t : State, step s = .next t →
    (s.faultCause ≠ 0 → t.faultCause ≠ 0) ∧ (s.haltCause ≠ .none → t.haltCause ≠ .none))

/-- R8: nothing guarantees that a run ends. A JMP to its own address is a legal run that never ends: after any number of steps
the core is Running in the same state. -/
def Obligations.JumpToItselfNeverEnds : Prop :=
  ∀ (s : State) (r : Byte) (i : Fin 8), s.status = .running → BytesAtPc [0x54, r] s → Selects r i →
    (s.readReg i).toNat = s.pc.toNat →
    ∀ n : Nat, Sys2Proof.core.run n s = .next s

/-- R79: the loop's update of `pc` on a step of a Running core that does not fault: with bit 4 of the opcode clear the length
is added, without a wrap and to at most 259; with bit 4 set `pc` is what the handler wrote, or unchanged where no handler
wrote it. The targets are those of R107 to R109; CALL R7's, the decremented SP, is derived by the spec (log entry 16), and the
update on halting steps and the length 4 are the spec's decisions D8 and D9 (log entry 10). -/
def Obligations.PcUpdateFollowsOpcodeBit4 : Prop :=
  ∀ s t : State, s.status = .running → step s = .next t → t.status ≠ .faulted →
    ∀ op, Memory.read s.mem s.pc.toNat = op →
    (op.getLsbD 4 = false → t.pc.toNat = s.pc.toNat + op.toNat / 64 + 1 ∧ t.pc.toNat ≤ 259) ∧
    (op.getLsbD 4 = true → op ≠ 0x50 → op ≠ 0x11 → op ≠ 0x54 → t.pc = s.pc) ∧
    (op = 0x11 → t.pc.toNat = (Memory.read s.mem s.sp.toNat).toNat) ∧
    (op = 0x54 → ∃ i, Selects (Memory.read s.mem (s.pc.toNat + 1)) i ∧ t.pc.toNat = (s.readReg i).toNat) ∧
    (op = 0x50 → ∃ i, Selects (Memory.read s.mem (s.pc.toNat + 1)) i ∧
      t.pc.toNat = if i = 7 then (s.sp.toNat + 255) % 256 else (s.readReg i).toNat)

/-- R24: FL is 0 after reset; a step that is no CMP leaves it as it is; no instruction reads it: steps that differ only in FL
differ only in FL; and the host sees it through the status and the debug-read interface. -/
def Obligations.OnlyCmpTouchesFlags : Prop :=
  (∀ startPc, (State.resetAt startPc).fl = 0) ∧
  (∀ s t : State, step s = .next t → ¬ OpcodeAtPc 0xA7 s → t.fl = s.fl) ∧
  (∀ s t : State, step s = .next t → t.status ≠ .faulted → OpcodeAtPc 0xA7 s →
    ∃ i j, Selects (Memory.read s.mem (s.pc.toNat + 1)) i ∧ Selects (Memory.read s.mem (s.pc.toNat + 2)) j ∧
      t.fl.getLsbD 2 = decide ((s.readReg i).toNat < (s.readReg j).toNat) ∧
      t.fl.getLsbD 1 = decide ((s.readReg i).toNat > (s.readReg j).toNat) ∧
      t.fl.getLsbD 0 = decide ((s.readReg i).toNat = (s.readReg j).toNat)) ∧
  (∀ (s t : State) (f : Byte), step s = .next t → ∃ u, step (s.setFl f) = .next u ∧ u.setFl t.fl = t) ∧
  (∀ s : State, s.statusPort.fl = s.fl ∧ s.debugRead.allState.fl = s.fl)

/-- R7, R24, R28 to R30, R32: FL, `halt_cause`, `fault_cause`, `fault_info` and `out` are read by no instruction. From states
that agree on registers, `pc`, `status` and memory the steps agree on them again and emit the same values. -/
def Obligations.RecordsNeverInfluenceExecution : Prop :=
  ∀ s u : State, SameInputs s u →
    ∃ s' u' vs, step s = .next s' ∧ step u = .next u' ∧ SameInputs s' u' ∧
      s'.out = s.out ++ vs ∧ u'.out = u.out ++ vs

/-- R98, R148: an executed PRN appends exactly its register's value to `out`; no other step changes `out` (R32), a faulting
PRN among them (R98). -/
def Obligations.OutputGrowsOnlyByPrn : Prop :=
  ∀ s t : State, step s = .next t →
    (OpcodeAtPc 0x47 s ∧ t.status ≠ .faulted →
      ∃ i, Selects (Memory.read s.mem (s.pc.toNat + 1)) i ∧ t.out = s.out ++ [s.readReg i]) ∧
    (¬ (OpcodeAtPc 0x47 s ∧ t.status ≠ .faulted) → t.out = s.out)

/-- R36, R41: a step writes at most the one cell below SP, and none unless its opcode is PUSH or CALL. -/
def Obligations.StepWritesAtMostOneCell : Prop :=
  ∀ s t : State, step s = .next t →
    MemoryKeptBut (stackAddress (decSp s)) s t ∧
    (¬ OpcodeAtPc 0x45 s → ¬ OpcodeAtPc 0x50 s → MemoryKept s t)

/-- R16, R86: a register changes in a step only as operand0 of ADD, MUL, LDI or POP, or as SP in PUSH, POP, CALL or RET. -/
def Obligations.StepChangesOnlyNamedRegisters : Prop :=
  ∀ (s t : State) (i : Fin 8), step s = .next t → t.readReg i ≠ s.readReg i →
    s.status = .running ∧ s.pc.toNat ≤ 255 ∧
    ((Memory.read s.mem s.pc.toNat ∈ ([0xA0, 0xA2, 0x82, 0x46] : List Byte) ∧
        Selects (Memory.read s.mem (s.pc.toNat + 1)) i) ∨
     (Memory.read s.mem s.pc.toNat ∈ ([0x45, 0x46, 0x50, 0x11] : List Byte) ∧ i = 7))

/-- R49: a byte that a PUSH stores at the address of the next instruction is the opcode the very next fetch reads. -/
def Obligations.StoredByteIsFetchedNext : Prop :=
  ∀ (s : State) (r : Byte) (i : Fin 8), s.status = .running → Memory.wf s.mem = true →
    BytesAtPc [0x45, r] s → Selects r i → stackAddress (decSp s) = s.pc.toNat + 2 →
    ∃ t, step s = .next t ∧ t.status = .running ∧
      OpcodeAtPc (if i = 7 then s.sp - 1 else s.readReg i) t

/-- R41, R107: a CALL whose push lands on its own operand byte still uses the register that the old byte names, and leaves
the return address in the cell (the order is the spec's decision D10, log entry 11). With `r = 7` the target is the decremented
SP, which the spec derives from the statement order (R107, log entry 16). -/
def Obligations.CallUsesOperandReadBeforePush : Prop :=
  ∀ (s : State) (r : Byte) (i : Fin 8), s.status = .running → Memory.wf s.mem = true →
    s.pc.toNat ≤ 253 → BytesAtPc [0x50, r] s → Selects r i → stackAddress (decSp s) = s.pc.toNat + 1 →
    ∃ t, step s = .next t ∧
      t.pc.toNat = (if i = 7 then (s.sp.toNat + 255) % 256 else (s.readReg i).toNat) ∧
      (Memory.read t.mem (s.pc.toNat + 1)).toNat = s.pc.toNat + 2

/-! ### Invariants -/

/-- Every step keeps the canonical form of the memory, from every state that has it. -/
def Obligations.StepKeepsCanonicalMemory : Prop :=
  ∀ s t : State, Memory.wf s.mem = true → step s = .next t → Memory.wf t.mem = true

/-- Every step keeps the invariant: canonical memory, FL at one of its four values, and `status`, `pc`, `halt_cause`,
`fault_cause`, `fault_info` in agreement. -/
def Obligations.StepKeepsInvariant : Prop := ∀ s t : State, CoreInv s → step s = .next t → CoreInv t

/-- The invariant holds after reset, whatever the start address. -/
def Obligations.ResetMeetsInvariant : Prop := ∀ startPc : Byte, CoreInv (State.resetAt startPc)

/-- The invariant holds in every launch state: any image, any start address. -/
def Obligations.LaunchMeetsInvariant : Prop :=
  ∀ (image : List (Byte × Byte)) (startPc : Byte), CoreInv (State.launch image startPc)

/-- R20, R25, R28 to R30, R117: in every state of every run from a launch state, FL has one of four values, a core that is
not Halted has `pc` at most 256 and a Halted one at most 259, `halt_cause` and `fault_cause` say exactly when the core is
Halted or Faulted, and an AddressFault always reports 256. -/
def Obligations.ReachableStatesAreBounded : Prop :=
  ∀ s : State, Reachable s →
    (s.fl = 0 ∨ s.fl = 1 ∨ s.fl = 2 ∨ s.fl = 4) ∧
    (s.status ≠ .halted → s.pc.toNat ≤ 256) ∧ s.pc.toNat ≤ 259 ∧
    (s.status = .halted ↔ s.haltCause ≠ .none) ∧
    (s.status = .faulted ↔ s.faultCause ≠ 0) ∧
    (s.faultCause = 0 → s.faultInfo = 0) ∧
    (s.faultCause = 1 → s.faultInfo = 256) ∧
    (s.faultCause = 2 → 8 ≤ s.faultInfo.toNat ∧ s.faultInfo.toNat ≤ 255) ∧
    (s.faultCause = 3 → ∃ op : Byte, s.faultInfo = op.setWidth 9 ∧ op.getLsbD 5 = true ∧ op ∉ aluBytes)
end

