-- ==== Sys2Proof/Laws/Decode.lean ====
section
/-! SUPPORT. The decoder's three values as bits of the opcode byte (R53 to R56), the fields of each defined opcode (R61),
and what the decoder makes of each opcode byte of the table. -/

namespace Sys2Proof

/-- `len = op[7:6] + 1` (R54). -/
theorem instrLen_eq (op : Byte) : instrLen op = op.toNat / 64 + 1 := by
  revert op; decide +kernel

/-- `ALU = op[5]` (R55). -/
theorem aluFlag_eq (op : Byte) : aluFlag op = op.getLsbD 5 := by
  revert op; decide +kernel

/-- `SETPC = op[4]` (R56). -/
theorem setPcFlag_eq (op : Byte) : setPcFlag op = op.getLsbD 4 := by
  revert op; decide +kernel

theorem instrLen_le (op : Byte) : instrLen op ≤ 4 := by
  have := op.isLt
  rw [instrLen_eq]
  omega

variable (a b : Byte) (rest : List Byte)

theorem decode_add : decode (opcAdd :: a :: b :: rest) = .instr (.add a b) rest := rfl
theorem decode_mul : decode (opcMul :: a :: b :: rest) = .instr (.mul a b) rest := rfl
theorem decode_cmp : decode (opcCmp :: a :: b :: rest) = .instr (.cmp a b) rest := rfl
theorem decode_ldi : decode (opcLdi :: a :: b :: rest) = .instr (.ldi a b) rest := rfl
theorem decode_prn : decode (opcPrn :: a :: rest) = .instr (.prn a) rest := rfl
theorem decode_push : decode (opcPush :: a :: rest) = .instr (.push a) rest := rfl
theorem decode_pop : decode (opcPop :: a :: rest) = .instr (.pop a) rest := rfl
theorem decode_hlt : decode (opcHlt :: rest) = .instr .hlt rest := rfl
theorem decode_call : decode (opcCall :: a :: rest) = .instr (.call a) rest := rfl
theorem decode_ret : decode (opcRet :: rest) = .instr .ret rest := rfl
theorem decode_jmp : decode (opcJmp :: a :: rest) = .instr (.jmp a) rest := rfl

/-- An ALU-flagged opcode outside the ALU table is rejected once its operand bytes are there (R67, R76). -/
theorem decode_unsupported {op : Byte} (h : aluFlag op = true) (ht : op ∉ aluTable) :
    decode (op :: a :: b :: rest) = .unsupportedAlu op := by
  simp only [aluTable, List.mem_cons, List.not_mem_nil, or_false, not_or] at ht
  simp [decode, decodeAlu, decodeTwo, h, ht]

/-- A control opcode outside the control table is rejected whatever follows (R66, R77). -/
theorem decode_unknown {op : Byte} (h : aluFlag op = false) (ht : op ∉ controlTable) :
    decode (op :: rest) = .unknownControl op := by
  simp only [controlTable, List.mem_cons, List.not_mem_nil, or_false, not_or] at ht
  simp [decode, decodeControl, h, ht]

end Sys2Proof
end

