-- ==== Sys2Proof/Laws/Memory.lean ====
section
/-! SUPPORT. The laws of the memory array: a write is read back, leaves every other cell alone, and keeps the canonical
form; canonical memories that read the same are the same list. -/

namespace Sys2Proof.Machine

theorem Memory.wfFrom_cons {lo a : Nat} {v : Byte} {m : Memory} :
    Memory.wfFrom lo ((a, v) :: m) = true ↔
      lo ≤ a ∧ a < Config.memSize ∧ v ≠ Memory.unlisted ∧ Memory.wfFrom (a + 1) m = true := by
  simp [Memory.wfFrom, and_assoc]

theorem Memory.wfFrom_mono {lo lo' : Nat} {m : Memory} (hle : lo' ≤ lo) (h : Memory.wfFrom lo m = true) :
    Memory.wfFrom lo' m = true := by
  cases m with
  | nil => rfl
  | cons c m =>
    obtain ⟨a, v⟩ := c
    rw [Memory.wfFrom_cons] at h ⊢
    exact ⟨hle.trans h.1, h.2⟩

/-- Below the first listed address every cell reads as unlisted. -/
theorem Memory.read_of_lt {lo a : Nat} {m : Memory} (h : Memory.wfFrom lo m = true) (ha : a < lo) :
    Memory.read m a = Memory.unlisted := by
  induction m generalizing lo with
  | nil => rfl
  | cons c m ih =>
    obtain ⟨b, w⟩ := c
    rw [Memory.wfFrom_cons] at h
    have hne : a ≠ b := by omega
    simp only [Memory.read, hne, if_false]
    exact ih h.2.2.2 (by omega)

/-- A write leaves every other cell alone (R42), in every memory. -/
theorem Memory.read_write_of_ne {a c : Nat} (m : Memory) (v : Byte) (hne : c ≠ a) :
    Memory.read (Memory.write m a v) c = Memory.read m c := by
  induction m with
  | nil => unfold Memory.write; split <;> simp [Memory.read, hne]
  | cons p m ih =>
    obtain ⟨b, w⟩ := p
    unfold Memory.write
    split
    · split <;> simp [Memory.read, hne]
    · split
      · rename_i hab
        subst hab
        split <;> simp [Memory.read, hne]
      · simp only [Memory.read, ih]

/-- In a canonical memory a write is read back (R42). -/
theorem Memory.read_write_self_from {lo a : Nat} {m : Memory} (v : Byte) (h : Memory.wfFrom lo m = true) :
    Memory.read (Memory.write m a v) a = v := by
  induction m generalizing lo with
  | nil => unfold Memory.write; split <;> simp_all [Memory.read]
  | cons p m ih =>
    obtain ⟨b, w⟩ := p
    have hcons := h
    rw [Memory.wfFrom_cons] at h
    unfold Memory.write
    split
    · rename_i hlt
      split
      · rename_i hv
        rw [hv]
        exact Memory.read_of_lt (lo := b)
          (Memory.wfFrom_cons.mpr ⟨le_refl b, h.2⟩) hlt
      · simp [Memory.read]
    · split
      · rename_i hab
        subst hab
        split
        · rename_i hv
          rw [hv]
          exact Memory.read_of_lt h.2.2.2 (Nat.lt_succ_self a)
        · simp [Memory.read]
      · rename_i hab
        simp only [Memory.read, hab, if_false]
        exact ih h.2.2.2

theorem Memory.read_write_self {m : Memory} (a : Nat) (v : Byte) (h : Memory.wf m = true) :
    Memory.read (Memory.write m a v) a = v := Memory.read_write_self_from v h

theorem Memory.read_write {m : Memory} (a c : Nat) (v : Byte) (h : Memory.wf m = true) :
    Memory.read (Memory.write m a v) c = if c = a then v else Memory.read m c := by
  split
  · rename_i hc; subst hc; exact Memory.read_write_self c v h
  · rename_i hc; exact Memory.read_write_of_ne m v hc

/-- A write inside the address space keeps the canonical form. -/
theorem Memory.wfFrom_write {lo a : Nat} {m : Memory} (v : Byte) (hlo : lo ≤ a) (ha : a < Config.memSize)
    (h : Memory.wfFrom lo m = true) : Memory.wfFrom lo (Memory.write m a v) = true := by
  induction m generalizing lo with
  | nil =>
    unfold Memory.write
    split
    · rfl
    · rename_i hv; exact Memory.wfFrom_cons.mpr ⟨hlo, ha, hv, rfl⟩
  | cons p m ih =>
    obtain ⟨b, w⟩ := p
    have hcons := h
    rw [Memory.wfFrom_cons] at h
    unfold Memory.write
    split
    · rename_i hlt
      split
      · exact hcons
      · rename_i hv
        exact Memory.wfFrom_cons.mpr ⟨hlo, ha, hv, Memory.wfFrom_cons.mpr ⟨hlt, h.2⟩⟩
    · split
      · rename_i hab
        subst hab
        split
        · exact Memory.wfFrom_mono (by omega) h.2.2.2
        · rename_i hv; exact Memory.wfFrom_cons.mpr ⟨hlo, ha, hv, h.2.2.2⟩
      · exact Memory.wfFrom_cons.mpr ⟨h.1, h.2.1, h.2.2.1, ih (by omega) h.2.2.2⟩

theorem Memory.wf_write {m : Memory} {a : Nat} (v : Byte) (ha : a < Config.memSize) (h : Memory.wf m = true) :
    Memory.wf (Memory.write m a v) = true := Memory.wfFrom_write v (Nat.zero_le a) ha h

/-- Canonical memories that read the same at every address are equal. -/
theorem Memory.eq_of_read_eq_from {lo : Nat} {m n : Memory} (hm : Memory.wfFrom lo m = true)
    (hn : Memory.wfFrom lo n = true) (h : ∀ a, Memory.read m a = Memory.read n a) : m = n := by
  induction m generalizing lo n with
  | nil =>
    cases n with
    | nil => rfl
    | cons q n =>
      obtain ⟨c, u⟩ := q
      have hu := h c
      simp only [Memory.read, if_true] at hu
      exact absurd hu.symm (Memory.wfFrom_cons.mp hn).2.2.1
  | cons p m ih =>
    obtain ⟨b, w⟩ := p
    have hm' := Memory.wfFrom_cons.mp hm
    cases n with
    | nil =>
      have hw := h b
      simp only [Memory.read, if_true] at hw
      exact absurd hw hm'.2.2.1
    | cons q n =>
      obtain ⟨c, u⟩ := q
      have hn' := Memory.wfFrom_cons.mp hn
      have hbc : b = c := by
        rcases Nat.lt_trichotomy b c with hlt | heq | hgt
        · have hb := h b
          rw [Memory.read_of_lt (lo := c) (m := (c, u) :: n) (Memory.wfFrom_cons.mpr ⟨le_refl c, hn'.2⟩) hlt] at hb
          simp only [Memory.read, if_true] at hb
          exact absurd hb hm'.2.2.1
        · exact heq
        · have hc := h c
          rw [Memory.read_of_lt (lo := b) (m := (b, w) :: m) (Memory.wfFrom_cons.mpr ⟨le_refl b, hm'.2⟩) hgt] at hc
          simp only [Memory.read, if_true] at hc
          exact absurd hc.symm hn'.2.2.1
      subst hbc
      have hwu : w = u := by simpa [Memory.read] using h b
      subst hwu
      have htail : m = n := by
        refine ih hm'.2.2.2 hn'.2.2.2 fun a => ?_
        by_cases hab : a = b
        · subst hab
          rw [Memory.read_of_lt hm'.2.2.2 (Nat.lt_succ_self a), Memory.read_of_lt hn'.2.2.2 (Nat.lt_succ_self a)]
        · simpa [Memory.read, hab] using h a
      rw [htail]

theorem Memory.eq_of_read_eq {m n : Memory} (hm : Memory.wf m = true) (hn : Memory.wf n = true)
    (h : ∀ a, Memory.read m a = Memory.read n a) : m = n := Memory.eq_of_read_eq_from hm hn h

end Sys2Proof.Machine
end

