-- ==== Sys2Proof/Laws/State.lean ====
section
/-! SUPPORT. One lemma per field per update of State, so that no proof unfolds a record update. -/

namespace Sys2Proof.Machine

variable (s : State)

/-! ### writeReg -/

@[simp] theorem State.writeReg_x (i : Fin 8) (v : Byte) : (s.writeReg i v).x = s.x.set i v := rfl
@[simp] theorem State.writeReg_pc (i : Fin 8) (v : Byte) : (s.writeReg i v).pc = s.pc := rfl
@[simp] theorem State.writeReg_fl (i : Fin 8) (v : Byte) : (s.writeReg i v).fl = s.fl := rfl
@[simp] theorem State.writeReg_status (i : Fin 8) (v : Byte) : (s.writeReg i v).status = s.status := rfl
@[simp] theorem State.writeReg_haltCause (i : Fin 8) (v : Byte) : (s.writeReg i v).haltCause = s.haltCause := rfl
@[simp] theorem State.writeReg_faultCause (i : Fin 8) (v : Byte) : (s.writeReg i v).faultCause = s.faultCause := rfl
@[simp] theorem State.writeReg_faultInfo (i : Fin 8) (v : Byte) : (s.writeReg i v).faultInfo = s.faultInfo := rfl
@[simp] theorem State.writeReg_mem (i : Fin 8) (v : Byte) : (s.writeReg i v).mem = s.mem := rfl
@[simp] theorem State.writeReg_out (i : Fin 8) (v : Byte) : (s.writeReg i v).out = s.out := rfl

/-! ### writeCell -/

@[simp] theorem State.writeCell_x (a : Nat) (v : Byte) : (s.writeCell a v).x = s.x := rfl
@[simp] theorem State.writeCell_pc (a : Nat) (v : Byte) : (s.writeCell a v).pc = s.pc := rfl
@[simp] theorem State.writeCell_fl (a : Nat) (v : Byte) : (s.writeCell a v).fl = s.fl := rfl
@[simp] theorem State.writeCell_status (a : Nat) (v : Byte) : (s.writeCell a v).status = s.status := rfl
@[simp] theorem State.writeCell_haltCause (a : Nat) (v : Byte) : (s.writeCell a v).haltCause = s.haltCause := rfl
@[simp] theorem State.writeCell_faultCause (a : Nat) (v : Byte) : (s.writeCell a v).faultCause = s.faultCause := rfl
@[simp] theorem State.writeCell_faultInfo (a : Nat) (v : Byte) : (s.writeCell a v).faultInfo = s.faultInfo := rfl
@[simp] theorem State.writeCell_mem (a : Nat) (v : Byte) : (s.writeCell a v).mem = Memory.write s.mem a v := rfl
@[simp] theorem State.writeCell_out (a : Nat) (v : Byte) : (s.writeCell a v).out = s.out := rfl
@[simp] theorem State.readReg_writeCell (a : Nat) (v : Byte) (j : Fin 8) : (s.writeCell a v).readReg j = s.readReg j := rfl
@[simp] theorem State.sp_writeCell (a : Nat) (v : Byte) : (s.writeCell a v).sp = s.sp := rfl

/-! ### setPc -/

@[simp] theorem State.setPc_x (p : Addr9) : (s.setPc p).x = s.x := rfl
@[simp] theorem State.setPc_pc (p : Addr9) : (s.setPc p).pc = p := rfl
@[simp] theorem State.setPc_fl (p : Addr9) : (s.setPc p).fl = s.fl := rfl
@[simp] theorem State.setPc_status (p : Addr9) : (s.setPc p).status = s.status := rfl
@[simp] theorem State.setPc_haltCause (p : Addr9) : (s.setPc p).haltCause = s.haltCause := rfl
@[simp] theorem State.setPc_faultCause (p : Addr9) : (s.setPc p).faultCause = s.faultCause := rfl
@[simp] theorem State.setPc_faultInfo (p : Addr9) : (s.setPc p).faultInfo = s.faultInfo := rfl
@[simp] theorem State.setPc_mem (p : Addr9) : (s.setPc p).mem = s.mem := rfl
@[simp] theorem State.setPc_out (p : Addr9) : (s.setPc p).out = s.out := rfl
@[simp] theorem State.readReg_setPc (p : Addr9) (j : Fin 8) : (s.setPc p).readReg j = s.readReg j := rfl
@[simp] theorem State.sp_setPc (p : Addr9) : (s.setPc p).sp = s.sp := rfl

/-! ### setFl -/

@[simp] theorem State.setFl_x (f : Byte) : (s.setFl f).x = s.x := rfl
@[simp] theorem State.setFl_pc (f : Byte) : (s.setFl f).pc = s.pc := rfl
@[simp] theorem State.setFl_fl (f : Byte) : (s.setFl f).fl = f := rfl
@[simp] theorem State.setFl_status (f : Byte) : (s.setFl f).status = s.status := rfl
@[simp] theorem State.setFl_haltCause (f : Byte) : (s.setFl f).haltCause = s.haltCause := rfl
@[simp] theorem State.setFl_faultCause (f : Byte) : (s.setFl f).faultCause = s.faultCause := rfl
@[simp] theorem State.setFl_faultInfo (f : Byte) : (s.setFl f).faultInfo = s.faultInfo := rfl
@[simp] theorem State.setFl_mem (f : Byte) : (s.setFl f).mem = s.mem := rfl
@[simp] theorem State.setFl_out (f : Byte) : (s.setFl f).out = s.out := rfl
@[simp] theorem State.readReg_setFl (f : Byte) (j : Fin 8) : (s.setFl f).readReg j = s.readReg j := rfl
@[simp] theorem State.sp_setFl (f : Byte) : (s.setFl f).sp = s.sp := rfl

/-! ### emit -/

@[simp] theorem State.emit_x (v : Byte) : (s.emit v).x = s.x := rfl
@[simp] theorem State.emit_pc (v : Byte) : (s.emit v).pc = s.pc := rfl
@[simp] theorem State.emit_fl (v : Byte) : (s.emit v).fl = s.fl := rfl
@[simp] theorem State.emit_status (v : Byte) : (s.emit v).status = s.status := rfl
@[simp] theorem State.emit_haltCause (v : Byte) : (s.emit v).haltCause = s.haltCause := rfl
@[simp] theorem State.emit_faultCause (v : Byte) : (s.emit v).faultCause = s.faultCause := rfl
@[simp] theorem State.emit_faultInfo (v : Byte) : (s.emit v).faultInfo = s.faultInfo := rfl
@[simp] theorem State.emit_mem (v : Byte) : (s.emit v).mem = s.mem := rfl
@[simp] theorem State.emit_out (v : Byte) : (s.emit v).out = s.out ++ [v] := rfl
@[simp] theorem State.readReg_emit (v : Byte) (j : Fin 8) : (s.emit v).readReg j = s.readReg j := rfl
@[simp] theorem State.sp_emit (v : Byte) : (s.emit v).sp = s.sp := rfl

/-! ### halt -/

@[simp] theorem State.halt_x (c : HaltCause) : (s.halt c).x = s.x := rfl
@[simp] theorem State.halt_pc (c : HaltCause) : (s.halt c).pc = s.pc := rfl
@[simp] theorem State.halt_fl (c : HaltCause) : (s.halt c).fl = s.fl := rfl
@[simp] theorem State.halt_status (c : HaltCause) : (s.halt c).status = .halted := rfl
@[simp] theorem State.halt_haltCause (c : HaltCause) : (s.halt c).haltCause = c := rfl
@[simp] theorem State.halt_faultCause (c : HaltCause) : (s.halt c).faultCause = s.faultCause := rfl
@[simp] theorem State.halt_faultInfo (c : HaltCause) : (s.halt c).faultInfo = s.faultInfo := rfl
@[simp] theorem State.halt_mem (c : HaltCause) : (s.halt c).mem = s.mem := rfl
@[simp] theorem State.halt_out (c : HaltCause) : (s.halt c).out = s.out := rfl
@[simp] theorem State.readReg_halt (c : HaltCause) (j : Fin 8) : (s.halt c).readReg j = s.readReg j := rfl
@[simp] theorem State.sp_halt (c : HaltCause) : (s.halt c).sp = s.sp := rfl

/-! ### raise -/

@[simp] theorem State.raise_x (f : Fault) : (s.raise f).x = s.x := rfl
@[simp] theorem State.raise_pc (f : Fault) : (s.raise f).pc = s.pc := rfl
@[simp] theorem State.raise_fl (f : Fault) : (s.raise f).fl = s.fl := rfl
@[simp] theorem State.raise_status (f : Fault) : (s.raise f).status = .faulted := rfl
@[simp] theorem State.raise_haltCause (f : Fault) : (s.raise f).haltCause = s.haltCause := rfl
@[simp] theorem State.raise_faultCause (f : Fault) : (s.raise f).faultCause = f.code := rfl
@[simp] theorem State.raise_faultInfo (f : Fault) : (s.raise f).faultInfo = f.info := rfl
@[simp] theorem State.raise_mem (f : Fault) : (s.raise f).mem = s.mem := rfl
@[simp] theorem State.raise_out (f : Fault) : (s.raise f).out = s.out := rfl
@[simp] theorem State.readReg_raise (f : Fault) (j : Fin 8) : (s.raise f).readReg j = s.readReg j := rfl
@[simp] theorem State.sp_raise (f : Fault) : (s.raise f).sp = s.sp := rfl

/-! ### jumpTo, updatePc and the register file -/

theorem State.jumpTo_eq (v : Byte) : s.jumpTo v = s.setPc (v.setWidth 9) := rfl

/-- The loop's update touches `pc` only (R79). -/
theorem State.updatePc_eq (op : Byte) :
    s.updatePc op = s.setPc (if setPcFlag op then s.pc else s.pc + BitVec.ofNat 9 (instrLen op)) := by
  unfold State.updatePc
  split <;> rfl

/-- A register reads back what was written to it, the others are unchanged (R15). -/
theorem State.readReg_writeReg (i j : Fin 8) (v : Byte) :
    (s.writeReg i v).readReg j = if i = j then v else s.readReg j := by
  simp only [State.readReg, State.writeReg, Fin.getElem_fin, Vector.getElem_set, Fin.ext_iff]

@[simp] theorem State.readReg_writeReg_self (i : Fin 8) (v : Byte) : (s.writeReg i v).readReg i = v := by
  simp [State.readReg_writeReg]

theorem State.readReg_writeReg_of_ne {i j : Fin 8} (h : j ≠ i) (v : Byte) :
    (s.writeReg i v).readReg j = s.readReg j := by
  simp [State.readReg_writeReg, h.symm]

@[simp] theorem State.sp_writeReg_spIndex (v : Byte) : (s.writeReg Config.spIndex v).sp = v :=
  State.readReg_writeReg_self s _ v

/-- Two register files that read the same are the same. -/
theorem State.x_ext {s t : State} (h : ∀ i, t.readReg i = s.readReg i) : t.x = s.x :=
  Vector.ext fun i hi => h ⟨i, hi⟩

end Sys2Proof.Machine
end

