-- ==== Sys2Proof/Laws/Operands.lean ====
section
/-! SUPPORT. What each shared operation of Ops.lean and Operands.lean can do, said once. -/

namespace Sys2Proof.Machine

/-! ### Registers and memory -/

theorem checkReg_of_selects {r : Byte} {i : Fin 8} (h : Selects r i) : checkReg r = .ok i := by
  have hlt : r.toNat < 8 := h ▸ i.isLt
  simp only [checkReg, hlt, dif_pos, Except.ok.injEq]
  exact Fin.ext h

theorem checkReg_of_noRegister {r : Byte} (h : NoRegister r) : checkReg r = .error (.registerIndexFault r) := by
  have hge : ¬ r.toNat < 8 := Nat.not_lt.mpr h
  simp [checkReg, hge]

/-- An operand byte selects a register or none (R59). -/
theorem selects_or_noRegister (r : Byte) : (∃ i, Selects r i) ∨ NoRegister r := by
  by_cases h : r.toNat < 8
  · exact .inl ⟨⟨r.toNat, h⟩, rfl⟩
  · exact .inr (Nat.not_lt.mp h)

theorem memRead_of_le {addr : Nat} (s : State) (h : addr ≤ 255) : memRead addr s = .ok (Memory.read s.mem addr) := by
  simp [memRead, Config.memSize, Nat.lt_succ_of_le h]

theorem memRead_of_gt {addr : Nat} (s : State) (h : 255 < addr) : memRead addr s = .error (.addressFault addr) := by
  simp [memRead, Config.memSize, show ¬ addr < 256 by omega]

theorem memWrite_of_le {addr : Nat} (v : Byte) (s : State) (h : addr ≤ 255) :
    memWrite addr v s = .ok (s.writeCell addr v) := by
  simp [memWrite, Config.memSize, Nat.lt_succ_of_le h]

theorem memWrite_of_gt {addr : Nat} (v : Byte) (s : State) (h : 255 < addr) :
    memWrite addr v s = .error (.addressFault addr) := by
  simp [memWrite, Config.memSize, show ¬ addr < 256 by omega]

/-! ### The stack (R99, R100): a stack access never faults (R19) -/

theorem stackAddress_le (s : State) : stackAddress s ≤ 255 := Nat.le_of_lt_succ s.sp.isLt

@[simp] theorem decSp_sp (s : State) : (decSp s).sp = s.sp - 1 := State.sp_writeReg_spIndex s _

@[simp] theorem incSp_sp (s : State) : (incSp s).sp = s.sp + 1 := State.sp_writeReg_spIndex s _

@[simp] theorem decSp_pc (s : State) : (decSp s).pc = s.pc := rfl
@[simp] theorem decSp_fl (s : State) : (decSp s).fl = s.fl := rfl
@[simp] theorem decSp_status (s : State) : (decSp s).status = s.status := rfl
@[simp] theorem decSp_haltCause (s : State) : (decSp s).haltCause = s.haltCause := rfl
@[simp] theorem decSp_faultCause (s : State) : (decSp s).faultCause = s.faultCause := rfl
@[simp] theorem decSp_faultInfo (s : State) : (decSp s).faultInfo = s.faultInfo := rfl
@[simp] theorem decSp_mem (s : State) : (decSp s).mem = s.mem := rfl
@[simp] theorem decSp_out (s : State) : (decSp s).out = s.out := rfl

@[simp] theorem incSp_pc (s : State) : (incSp s).pc = s.pc := rfl
@[simp] theorem incSp_fl (s : State) : (incSp s).fl = s.fl := rfl
@[simp] theorem incSp_status (s : State) : (incSp s).status = s.status := rfl
@[simp] theorem incSp_haltCause (s : State) : (incSp s).haltCause = s.haltCause := rfl
@[simp] theorem incSp_faultCause (s : State) : (incSp s).faultCause = s.faultCause := rfl
@[simp] theorem incSp_faultInfo (s : State) : (incSp s).faultInfo = s.faultInfo := rfl
@[simp] theorem incSp_mem (s : State) : (incSp s).mem = s.mem := rfl
@[simp] theorem incSp_out (s : State) : (incSp s).out = s.out := rfl

theorem decSp_readReg (s : State) (i : Fin 8) :
    (decSp s).readReg i = if i = 7 then s.sp - 1 else s.readReg i := by
  simp only [decSp, State.readReg_writeReg, Config.spIndex, eq_comm]

theorem incSp_readReg (s : State) (i : Fin 8) :
    (incSp s).readReg i = if i = 7 then s.sp + 1 else s.readReg i := by
  simp only [incSp, State.readReg_writeReg, Config.spIndex, eq_comm]

/-- SP minus 1 modulo 256 (R19). -/
theorem toNat_sub_one (v : Byte) : (v - 1).toNat = (v.toNat + 255) % 256 := by
  rw [BitVec.toNat_sub]
  simp [Nat.add_comm]

/-- SP plus 1 modulo 256 (R19). -/
theorem toNat_add_one (v : Byte) : (v + 1).toNat = (v.toNat + 1) % 256 := by simp [BitVec.toNat_add]

theorem push_eq (src : PushSource) (s : State) :
    push src s = .ok ((decSp s).writeCell (stackAddress (decSp s)) (src.value (decSp s))) :=
  memWrite_of_le _ _ (stackAddress_le _)

theorem pop_eq (dst : PopDest) (s : State) :
    pop dst s = .ok (incSp (dst.put (Memory.read s.mem (stackAddress s)) s)) := by
  simp [pop, memRead_of_le s (stackAddress_le s)]

/-- What a push leaves in its cell, in a canonical memory (R99). -/
theorem read_pushed {s : State} (v : Byte) (h : Memory.wf s.mem = true) :
    Memory.read ((decSp s).writeCell (stackAddress (decSp s)) v).mem (stackAddress (decSp s)) = v :=
  Memory.read_write_self (m := s.mem) _ v h

/-- The address a push stores to: SP minus 1 modulo 256 (R106). -/
theorem stackAddress_decSp (s : State) : stackAddress (decSp s) = (s.sp.toNat + 255) % 256 := by
  rw [stackAddress, decSp_sp, toNat_sub_one]

/-- An 8-bit target is zero-extended into `pc` (R110). -/
theorem toNat_setWidth_nine (v : Byte) : (v.setWidth 9 : Addr9).toNat = v.toNat := by
  have := v.isLt
  rw [BitVec.toNat_setWidth]
  omega

/-- `pc` after a jump is the 8-bit target (R110). -/
theorem jumpTo_pc_toNat (s : State) (v : Byte) : (s.jumpTo v).pc.toNat = v.toNat := toNat_setWidth_nine v

/-! ### Faults -/

/-- Taking a fault leaves what R119 says. -/
theorem raised_raise (f : Fault) (s : State) : Raised f s (s.raise f) := by
  cases f <;> simp [Raised, Fault.code, Fault.info]

/-- The state a fault leaves is determined by the fault and the state before. -/
theorem eq_raise_of_raised {f : Fault} {s t : State} (h : Raised f s t) : t = s.raise f := by
  cases f <;> cases t <;> simp_all [Raised, State.raise, Fault.code, Fault.info]

/-! ### The end of a step -/

@[simp] theorem complete_ok (op : Byte) (s t : State) : complete op s (.ok t) = .next (t.updatePc op) := rfl

@[simp] theorem complete_error (op : Byte) (s : State) (f : Fault) : complete op s (.error f) = .next (s.raise f) := rfl

theorem returnAddress_of_le {s : State} (h : s.pc.toNat ≤ 253) :
    returnAddress s = .ok (BitVec.ofNat 8 (s.pc.toNat + 2)) := by
  simp [returnAddress, Config.memSize, show s.pc.toNat + 2 < 256 by omega]

theorem returnAddress_of_gt {s : State} (h : 254 ≤ s.pc.toNat) :
    returnAddress s = .error (.addressFault (s.pc.toNat + 2)) := by
  simp [returnAddress, Config.memSize, show ¬ s.pc.toNat + 2 < 256 by omega]

end Sys2Proof.Machine
end

