-- ==== Sys2Proof/Laws/Exec.lean ====
section
/-! SUPPORT. The state each instruction leaves, one equation per instruction and outcome; later proofs cite these and do not
unfold `exec`. -/

namespace Sys2Proof.Machine

variable {s : State} {a b r imm : Byte} {i j : Fin 8}

/-! ### ALU -/

theorem exec_add (ha : Selects a i) (hb : Selects b j) :
    exec (.add a b) s = .next ((s.writeReg i (s.readReg i + s.readReg j)).setPc (s.pc + 3)) := by
  simp only [exec, execAdd, aluDispatch, checkReg_of_selects ha, checkReg_of_selects hb]
  rfl

theorem exec_mul (ha : Selects a i) (hb : Selects b j) :
    exec (.mul a b) s = .next ((s.writeReg i (s.readReg i * s.readReg j)).setPc (s.pc + 3)) := by
  simp only [exec, execMul, aluDispatch, checkReg_of_selects ha, checkReg_of_selects hb]
  rfl

theorem exec_cmp (ha : Selects a i) (hb : Selects b j) :
    exec (.cmp a b) s =
      .next ((s.setFl (compareFlags s.fl (s.readReg i) (s.readReg j))).setPc (s.pc + 3)) := by
  simp only [exec, execCmp, aluDispatch, checkReg_of_selects ha, checkReg_of_selects hb]
  rfl

/-- A bad first operand of an ALU instruction (R87, R118). -/
theorem aluDispatch_bad_a (op : Byte) (f) (ha : NoRegister a) :
    aluDispatch op a b f s = .next (s.raise (.registerIndexFault a)) := by
  simp only [aluDispatch, checkReg_of_noRegister ha]
  rfl

/-- A bad second operand of an ALU instruction, the first being good (R87, R118). -/
theorem aluDispatch_bad_b (op : Byte) (f) (ha : Selects a i) (hb : NoRegister b) :
    aluDispatch op a b f s = .next (s.raise (.registerIndexFault b)) := by
  simp only [aluDispatch, checkReg_of_selects ha, checkReg_of_noRegister hb]
  rfl

/-! ### Data, output, stack, halt -/

theorem exec_ldi (h : Selects r i) : exec (.ldi r imm) s = .next ((s.writeReg i imm).setPc (s.pc + 3)) := by
  simp only [exec, execLdi, checkReg_of_selects h]
  rfl

theorem exec_prn (h : Selects r i) : exec (.prn r) s = .next ((s.emit (s.readReg i)).setPc (s.pc + 2)) := by
  simp only [exec, execPrn, checkReg_of_selects h]
  rfl

theorem exec_push (h : Selects r i) :
    exec (.push r) s =
      .next (((decSp s).writeCell (stackAddress (decSp s)) ((decSp s).readReg i)).setPc (s.pc + 2)) := by
  simp only [exec, execPush, checkReg_of_selects h, bind, Except.bind, push_eq]
  rfl

theorem exec_pop (h : Selects r i) :
    exec (.pop r) s =
      .next ((incSp (s.writeReg i (Memory.read s.mem (stackAddress s)))).setPc (s.pc + 2)) := by
  simp only [exec, execPop, checkReg_of_selects h, bind, Except.bind, pop_eq]
  rfl

theorem exec_hlt : exec .hlt s = .next ((s.halt .hltInstruction).setPc (s.pc + 1)) := rfl

/-! ### Control transfer -/

theorem exec_call (h : Selects r i) (hpc : s.pc.toNat ≤ 253) :
    exec (.call r) s =
      .next (((decSp s).writeCell (stackAddress (decSp s)) (BitVec.ofNat 8 (s.pc.toNat + 2))).jumpTo
        ((decSp s).readReg i)) := by
  simp only [exec, execCall, checkReg_of_selects h, returnAddress_of_le hpc, bind, Except.bind, push_eq]
  rfl

theorem exec_call_at_top (h : Selects r i) (hpc : 254 ≤ s.pc.toNat) :
    exec (.call r) s = .next (s.raise (.addressFault (s.pc.toNat + 2))) := by
  simp only [exec, execCall, checkReg_of_selects h, returnAddress_of_gt hpc, bind, Except.bind]
  rfl

theorem exec_ret : exec .ret s = .next (incSp (s.jumpTo (Memory.read s.mem (stackAddress s)))) := by
  simp only [exec, execRet, pop_eq]
  rfl

theorem exec_jmp (h : Selects r i) : exec (.jmp r) s = .next (s.jumpTo (s.readReg i)) := by
  simp only [exec, execJmp, checkReg_of_selects h]
  rfl

/-! ### A bad register operand (R118) -/

theorem exec_add_bad_a (ha : NoRegister a) : exec (.add a b) s = .next (s.raise (.registerIndexFault a)) := by
  simp only [exec, execAdd, aluDispatch_bad_a _ _ ha]

theorem exec_add_bad_b (ha : Selects a i) (hb : NoRegister b) :
    exec (.add a b) s = .next (s.raise (.registerIndexFault b)) := by
  simp only [exec, execAdd, aluDispatch_bad_b _ _ ha hb]

theorem exec_mul_bad_a (ha : NoRegister a) : exec (.mul a b) s = .next (s.raise (.registerIndexFault a)) := by
  simp only [exec, execMul, aluDispatch_bad_a _ _ ha]

theorem exec_mul_bad_b (ha : Selects a i) (hb : NoRegister b) :
    exec (.mul a b) s = .next (s.raise (.registerIndexFault b)) := by
  simp only [exec, execMul, aluDispatch_bad_b _ _ ha hb]

theorem exec_cmp_bad_a (ha : NoRegister a) : exec (.cmp a b) s = .next (s.raise (.registerIndexFault a)) := by
  simp only [exec, execCmp, aluDispatch_bad_a _ _ ha]

theorem exec_cmp_bad_b (ha : Selects a i) (hb : NoRegister b) :
    exec (.cmp a b) s = .next (s.raise (.registerIndexFault b)) := by
  simp only [exec, execCmp, aluDispatch_bad_b _ _ ha hb]

theorem exec_ldi_bad (h : NoRegister r) : exec (.ldi r imm) s = .next (s.raise (.registerIndexFault r)) := by
  simp only [exec, execLdi, checkReg_of_noRegister h]
  rfl

theorem exec_prn_bad (h : NoRegister r) : exec (.prn r) s = .next (s.raise (.registerIndexFault r)) := by
  simp only [exec, execPrn, checkReg_of_noRegister h]
  rfl

theorem exec_push_bad (h : NoRegister r) : exec (.push r) s = .next (s.raise (.registerIndexFault r)) := by
  simp only [exec, execPush, checkReg_of_noRegister h]
  rfl

theorem exec_pop_bad (h : NoRegister r) : exec (.pop r) s = .next (s.raise (.registerIndexFault r)) := by
  simp only [exec, execPop, checkReg_of_noRegister h]
  rfl

theorem exec_call_bad (h : NoRegister r) : exec (.call r) s = .next (s.raise (.registerIndexFault r)) := by
  simp only [exec, execCall, checkReg_of_noRegister h]
  rfl

theorem exec_jmp_bad (h : NoRegister r) : exec (.jmp r) s = .next (s.raise (.registerIndexFault r)) := by
  simp only [exec, execJmp, checkReg_of_noRegister h]
  rfl

end Sys2Proof.Machine
end

