-- ==== Sys2Proof/Laws/Flags.lean ====
section
/-! SUPPORT. The bits of FL after a comparison (R90), bit by bit. -/

namespace Sys2Proof.Machine

/-- Writing one flag bit writes that bit and no other (R12). -/
theorem setFlag_getLsbD (fl : Byte) {n : Nat} (hn : n < 8) (b : Bool) (k : Nat) :
    (setFlag fl n b).getLsbD k = if k = n then b else fl.getLsbD k := by
  by_cases hk : k < 8
  · unfold setFlag
    revert fl
    cases b <;> interval_cases n <;> interval_cases k <;> decide +kernel
  · rw [if_neg (show k ≠ n by omega), BitVec.getLsbD_of_ge _ _ (by omega), BitVec.getLsbD_of_ge _ _ (by omega)]

/-- Every bit of FL after a comparison (R25, R90). -/
theorem compareFlags_getLsbD (fl u v : Byte) (k : Nat) :
    (compareFlags fl u v).getLsbD k =
      if k = 0 then decide (u.toNat = v.toNat)
      else if k = 1 then decide (u.toNat > v.toNat)
      else if k = 2 then decide (u.toNat < v.toNat)
      else fl.getLsbD k := by
  simp only [compareFlags, setFlag_getLsbD _ (show flE < 8 by decide), setFlag_getLsbD _ (show flG < 8 by decide),
    setFlag_getLsbD _ (show flL < 8 by decide)]
  rfl

end Sys2Proof.Machine
end

