-- ==== Sys2Proof/Laws/Interface.lean ====
section
/-! SUPPORT. What the host interfaces show, and what a load leaves unchanged (R9): one lemma per field. -/

namespace Sys2Proof.Machine

variable (s : State)

/-! ### Reads -/

@[simp] theorem State.statusPort_pc : s.statusPort.pc = s.pc := rfl
@[simp] theorem State.statusPort_fl : s.statusPort.fl = s.fl := rfl
@[simp] theorem State.statusPort_status : s.statusPort.status = s.status := rfl
@[simp] theorem State.statusPort_haltCause : s.statusPort.haltCause = s.haltCause := rfl
@[simp] theorem State.statusPort_faultCause : s.statusPort.faultCause = s.faultCause := rfl
@[simp] theorem State.statusPort_faultInfo : s.statusPort.faultInfo = s.faultInfo := rfl
@[simp] theorem State.debugRead_allState : s.debugRead.allState = s := rfl

/-! ### Load -/

/-- A load writes memory and nothing else. -/
theorem State.loadImage_eq (image : List (Byte × Byte)) :
    s.loadImage image = { s with mem := (s.loadImage image).mem } := by
  induction image generalizing s with
  | nil => rfl
  | cons c image ih => exact ih (s.loadCell c)

@[simp] theorem State.loadImage_x (image : List (Byte × Byte)) : (s.loadImage image).x = s.x := by
  rw [State.loadImage_eq]
@[simp] theorem State.loadImage_pc (image : List (Byte × Byte)) : (s.loadImage image).pc = s.pc := by
  rw [State.loadImage_eq]
@[simp] theorem State.loadImage_fl (image : List (Byte × Byte)) : (s.loadImage image).fl = s.fl := by
  rw [State.loadImage_eq]
@[simp] theorem State.loadImage_status (image : List (Byte × Byte)) : (s.loadImage image).status = s.status := by
  rw [State.loadImage_eq]
@[simp] theorem State.loadImage_haltCause (image : List (Byte × Byte)) :
    (s.loadImage image).haltCause = s.haltCause := by rw [State.loadImage_eq]
@[simp] theorem State.loadImage_faultCause (image : List (Byte × Byte)) :
    (s.loadImage image).faultCause = s.faultCause := by rw [State.loadImage_eq]
@[simp] theorem State.loadImage_faultInfo (image : List (Byte × Byte)) :
    (s.loadImage image).faultInfo = s.faultInfo := by rw [State.loadImage_eq]
@[simp] theorem State.loadImage_out (image : List (Byte × Byte)) : (s.loadImage image).out = s.out := by
  rw [State.loadImage_eq]

end Sys2Proof.Machine
end

