-- ==== Sys2Proof/Laws/PerInstr.lean ====
section
/-! SUPPORT. Statements about every instruction, one lemma per constructor. -/

namespace Sys2Proof.Laws.EncodingShape

/-- R62: the bits of an instruction's opcode agree with what its handler does: NOPER counts the operand bytes, the length is
that of the encoding, bit 5 is set exactly for ADD, MUL and CMP, bit 4 exactly for CALL, RET and JMP, and a step reads exactly
the operand bytes. -/
def Statement (i : Instr) : Prop :=
  noper i.opcode = i.operands.length ∧
  instrLen i.opcode = (encode i).length ∧
  operandBytes i.opcode = i.operands.length ∧
  (aluFlag i.opcode = match i with
    | .add _ _ | .mul _ _ | .cmp _ _ => true
    | .ldi _ _ | .prn _ | .push _ | .pop _ | .hlt | .call _ | .ret | .jmp _ => false) ∧
  (setPcFlag i.opcode = match i with
    | .call _ | .ret | .jmp _ => true
    | .add _ _ | .mul _ _ | .cmp _ _ | .ldi _ _ | .prn _ | .push _ | .pop _ | .hlt => false)

/-- The five facts of an opcode with `n` operand bytes, bit 5 equal to `alu` and bit 4 equal to `sets`. -/
abbrev Fields (op : Byte) (n : Nat) (alu sets : Bool) : Prop :=
  noper op = n ∧ instrLen op = n + 1 ∧ operandBytes op = n ∧ aluFlag op = alu ∧ setPcFlag op = sets

theorem add (a b : Byte) : Statement (.add a b) := (by decide : Fields opcAdd 2 true false)
theorem mul (a b : Byte) : Statement (.mul a b) := (by decide : Fields opcMul 2 true false)
theorem cmp (a b : Byte) : Statement (.cmp a b) := (by decide : Fields opcCmp 2 true false)
theorem ldi (r imm : Byte) : Statement (.ldi r imm) := (by decide : Fields opcLdi 2 false false)
theorem prn (r : Byte) : Statement (.prn r) := (by decide : Fields opcPrn 1 false false)
theorem push (r : Byte) : Statement (.push r) := (by decide : Fields opcPush 1 false false)
theorem pop (r : Byte) : Statement (.pop r) := (by decide : Fields opcPop 1 false false)
theorem hlt : Statement .hlt := (by decide : Fields opcHlt 0 false false)
theorem call (r : Byte) : Statement (.call r) := (by decide : Fields opcCall 1 false true)
theorem ret : Statement .ret := (by decide : Fields opcRet 0 false true)
theorem jmp (r : Byte) : Statement (.jmp r) := (by decide : Fields opcJmp 1 false true)

end Sys2Proof.Laws.EncodingShape
end

