-- ==== Sys2Proof/Laws/Step.lean ====
section
/-! SUPPORT. What a fetch reads and what a step can do, said once: `step_cases` lists every way a step of a Running core can
go, and later proofs cite it instead of unfolding the step. -/

namespace Sys2Proof.Machine

variable {s : State} {op : Byte}

/-! ### Fetch (R74, R76, R77) -/

theorem fetch_beyond (h : 255 < s.pc.toNat) : fetch s = .error (.addressFault s.pc.toNat) := by
  simp only [fetch, memRead_of_gt s h]
  rfl

theorem fetch_none (hpc : s.pc.toNat ≤ 255) (hop : Memory.read s.mem s.pc.toNat = op) (hn : operandBytes op = 0) :
    fetch s = .ok [op] := by
  simp only [fetch, memRead_of_le s hpc, hop, bind, Except.bind, hn, readOperands]
  rfl

theorem fetch_one (hpc : s.pc.toNat ≤ 254) (hop : Memory.read s.mem s.pc.toNat = op) (hn : operandBytes op = 1) :
    fetch s = .ok [op, Memory.read s.mem (s.pc.toNat + 1)] := by
  simp only [fetch, memRead_of_le s (show s.pc.toNat ≤ 255 by omega), hop, bind, Except.bind, hn, readOperands,
    memRead_of_le s (show s.pc.toNat + 1 ≤ 255 by omega)]
  rfl

theorem fetch_one_beyond (hpc : s.pc.toNat = 255) (hop : Memory.read s.mem s.pc.toNat = op)
    (hn : operandBytes op = 1) : fetch s = .error (.addressFault 256) := by
  simp only [fetch, memRead_of_le s (le_of_eq hpc), hop, bind, Except.bind, hn, readOperands,
    memRead_of_gt s (show 255 < s.pc.toNat + 1 by omega)]
  simp [hpc]

theorem fetch_two (hpc : s.pc.toNat ≤ 253) (hop : Memory.read s.mem s.pc.toNat = op) (hn : operandBytes op = 2) :
    fetch s = .ok [op, Memory.read s.mem (s.pc.toNat + 1), Memory.read s.mem (s.pc.toNat + 2)] := by
  simp only [fetch, memRead_of_le s (show s.pc.toNat ≤ 255 by omega), hop, bind, Except.bind, hn, readOperands,
    memRead_of_le s (show s.pc.toNat + 1 ≤ 255 by omega), memRead_of_le s (show s.pc.toNat + 1 + 1 ≤ 255 by omega)]
  rfl

theorem fetch_two_beyond (hlo : 254 ≤ s.pc.toNat) (hpc : s.pc.toNat ≤ 255)
    (hop : Memory.read s.mem s.pc.toNat = op) (hn : operandBytes op = 2) :
    fetch s = .error (.addressFault 256) := by
  rcases (by omega : s.pc.toNat = 254 ∨ s.pc.toNat = 255) with h | h
  · simp only [fetch, memRead_of_le s hpc, hop, bind, Except.bind, hn, readOperands,
      memRead_of_le s (show s.pc.toNat + 1 ≤ 255 by omega), memRead_of_gt s (show 255 < s.pc.toNat + 1 + 1 by omega)]
    simp [h]
  · simp only [fetch, memRead_of_le s hpc, hop, bind, Except.bind, hn, readOperands,
      memRead_of_gt s (show 255 < s.pc.toNat + 1 by omega)]
    simp [h]

/-! ### One step, by what the fetch finds -/

theorem step_of_stopped (h : s.status ≠ .running) : step s = .next s := by
  unfold step cycle
  split <;> simp_all

theorem step_of_running (h : s.status = .running) : step s = runInstruction s := by
  simp [step, cycle, h]

theorem step_of_fetch_error {f : Fault} (h : s.status = .running) (hf : fetch s = .error f) :
    step s = .next (s.raise f) := by
  simp [step_of_running h, runInstruction, hf]

theorem step_of_fetch {bytes rest : List Byte} {i : Instr} (h : s.status = .running) (hf : fetch s = .ok bytes)
    (hd : decode bytes = .instr i rest) : step s = exec i s := by
  simp [step_of_running h, runInstruction, hf, hd]

theorem operandBytes_alu (h : aluFlag op = true) : operandBytes op = 2 := by simp [operandBytes, h]

theorem operandBytes_unknown (h : aluFlag op = false) (ht : op ∉ controlTable) : operandBytes op = 0 := by
  simp [operandBytes, h, ht]

theorem step_unsupported (h : s.status = .running) (hpc : s.pc.toNat ≤ 253)
    (hop : Memory.read s.mem s.pc.toNat = op) (ha : aluFlag op = true) (ht : op ∉ aluTable) :
    step s = .next (s.raise (.unsupportedAluOp op)) := by
  simp [step_of_running h, runInstruction, fetch_two hpc hop (operandBytes_alu ha), decode_unsupported _ _ _ ha ht]

theorem step_unknown (h : s.status = .running) (hpc : s.pc.toNat ≤ 255)
    (hop : Memory.read s.mem s.pc.toNat = op) (ha : aluFlag op = false) (ht : op ∉ controlTable) :
    step s = .next ((s.halt .unknownOpcode).updatePc op) := by
  simp [step_of_running h, runInstruction, fetch_none hpc hop (operandBytes_unknown ha ht), decode_unknown _ ha ht,
    haltUnknown]

/-! ### Every way a step can go -/

/-- What a fault taken from `s` can report: an address above 255 that is 256 or the `pc` of a fetch beyond the memory
(R117), an operand byte above 7 (R118), an ALU-flagged opcode outside the table (R120). -/
def FaultPossible (s : State) : Fault → Prop
  | .addressFault addr => addr = 256 ∨ (addr = s.pc.toNat ∧ 255 < s.pc.toNat)
  | .registerIndexFault i => NoRegister i
  | .unsupportedAluOp op => aluFlag op = true ∧ op ∉ aluTable

/-- The ways a step of a Running core can go, each with the state it leaves. -/
inductive StepCase (s : State) : State → Prop where
  | fault (f : Fault) (hf : FaultPossible s f) : StepCase s (s.raise f)
  | unknown (op : Byte) (hpc : s.pc.toNat ≤ 255) (hop : Memory.read s.mem s.pc.toNat = op) (ha : aluFlag op = false)
      (ht : op ∉ controlTable) : StepCase s ((s.halt .unknownOpcode).updatePc op)
  | add (i j : Fin 8) (hpc : s.pc.toNat ≤ 253) (hop : Memory.read s.mem s.pc.toNat = opcAdd)
      (hi : Selects (Memory.read s.mem (s.pc.toNat + 1)) i) (hj : Selects (Memory.read s.mem (s.pc.toNat + 2)) j) :
      StepCase s ((s.writeReg i (s.readReg i + s.readReg j)).setPc (s.pc + 3))
  | mul (i j : Fin 8) (hpc : s.pc.toNat ≤ 253) (hop : Memory.read s.mem s.pc.toNat = opcMul)
      (hi : Selects (Memory.read s.mem (s.pc.toNat + 1)) i) (hj : Selects (Memory.read s.mem (s.pc.toNat + 2)) j) :
      StepCase s ((s.writeReg i (s.readReg i * s.readReg j)).setPc (s.pc + 3))
  | cmp (i j : Fin 8) (hpc : s.pc.toNat ≤ 253) (hop : Memory.read s.mem s.pc.toNat = opcCmp)
      (hi : Selects (Memory.read s.mem (s.pc.toNat + 1)) i) (hj : Selects (Memory.read s.mem (s.pc.toNat + 2)) j) :
      StepCase s ((s.setFl (compareFlags s.fl (s.readReg i) (s.readReg j))).setPc (s.pc + 3))
  | ldi (i : Fin 8) (hpc : s.pc.toNat ≤ 253) (hop : Memory.read s.mem s.pc.toNat = opcLdi)
      (hi : Selects (Memory.read s.mem (s.pc.toNat + 1)) i) :
      StepCase s ((s.writeReg i (Memory.read s.mem (s.pc.toNat + 2))).setPc (s.pc + 3))
  | prn (i : Fin 8) (hpc : s.pc.toNat ≤ 254) (hop : Memory.read s.mem s.pc.toNat = opcPrn)
      (hi : Selects (Memory.read s.mem (s.pc.toNat + 1)) i) :
      StepCase s ((s.emit (s.readReg i)).setPc (s.pc + 2))
  | push (i : Fin 8) (hpc : s.pc.toNat ≤ 254) (hop : Memory.read s.mem s.pc.toNat = opcPush)
      (hi : Selects (Memory.read s.mem (s.pc.toNat + 1)) i) :
      StepCase s (((decSp s).writeCell (stackAddress (decSp s)) ((decSp s).readReg i)).setPc (s.pc + 2))
  | pop (i : Fin 8) (hpc : s.pc.toNat ≤ 254) (hop : Memory.read s.mem s.pc.toNat = opcPop)
      (hi : Selects (Memory.read s.mem (s.pc.toNat + 1)) i) :
      StepCase s ((incSp (s.writeReg i (Memory.read s.mem (stackAddress s)))).setPc (s.pc + 2))
  | hlt (hpc : s.pc.toNat ≤ 255) (hop : Memory.read s.mem s.pc.toNat = opcHlt) :
      StepCase s ((s.halt .hltInstruction).setPc (s.pc + 1))
  | call (i : Fin 8) (hpc : s.pc.toNat ≤ 253) (hop : Memory.read s.mem s.pc.toNat = opcCall)
      (hi : Selects (Memory.read s.mem (s.pc.toNat + 1)) i) :
      StepCase s (((decSp s).writeCell (stackAddress (decSp s)) (BitVec.ofNat 8 (s.pc.toNat + 2))).jumpTo
        ((decSp s).readReg i))
  | ret (hpc : s.pc.toNat ≤ 255) (hop : Memory.read s.mem s.pc.toNat = opcRet) :
      StepCase s (incSp (s.jumpTo (Memory.read s.mem (stackAddress s))))
  | jmp (i : Fin 8) (hpc : s.pc.toNat ≤ 254) (hop : Memory.read s.mem s.pc.toNat = opcJmp)
      (hi : Selects (Memory.read s.mem (s.pc.toNat + 1)) i) :
      StepCase s (s.jumpTo (s.readReg i))

/-- A step of a register-pair instruction: executed, or the fault of its first bad operand. -/
theorem stepCase_pair {mk : Byte → Byte → Instr} {t : Fin 8 → Fin 8 → State}
    {a b : Byte} (hgood : ∀ i j, Selects a i → Selects b j → exec (mk a b) s = .next (t i j))
    (hcase : ∀ i j, Selects a i → Selects b j → StepCase s (t i j))
    (hbada : NoRegister a → exec (mk a b) s = .next (s.raise (.registerIndexFault a)))
    (hbadb : ∀ i, Selects a i → NoRegister b → exec (mk a b) s = .next (s.raise (.registerIndexFault b))) :
    ∃ t, exec (mk a b) s = .next t ∧ StepCase s t := by
  rcases selects_or_noRegister a with ⟨i, hi⟩ | ha
  · rcases selects_or_noRegister b with ⟨j, hj⟩ | hb
    · exact ⟨_, hgood i j hi hj, hcase i j hi hj⟩
    · exact ⟨_, hbadb i hi hb, .fault _ hb⟩
  · exact ⟨_, hbada ha, .fault _ ha⟩

/-- A step of a one-register instruction: executed, or the fault of its bad operand. -/
theorem stepCase_reg {i : Instr} {r : Byte} (hgood : ∀ k, Selects r k → ∃ t, exec i s = .next t ∧ StepCase s t)
    (hbad : NoRegister r → exec i s = .next (s.raise (.registerIndexFault r))) :
    ∃ t, exec i s = .next t ∧ StepCase s t := by
  rcases selects_or_noRegister r with ⟨k, hk⟩ | hr
  · exact hgood k hk
  · exact ⟨_, hbad hr, .fault _ hr⟩

theorem step_cases_alu (h : s.status = .running) (hpc : s.pc.toNat ≤ 255)
    (ha : aluFlag (Memory.read s.mem s.pc.toNat) = true) : ∃ t, step s = .next t ∧ StepCase s t := by
  by_cases hlo : s.pc.toNat ≤ 253
  · by_cases ht : Memory.read s.mem s.pc.toNat ∈ aluTable
    · simp only [aluTable, List.mem_cons, List.not_mem_nil, or_false] at ht
      rcases ht with hop | hop | hop
      · rw [step_of_fetch h (fetch_two hlo hop rfl) (decode_add _ _ _)]
        exact stepCase_pair (fun i j hi hj => exec_add hi hj) (fun i j hi hj => .add i j hlo hop hi hj)
          exec_add_bad_a (fun _ => exec_add_bad_b)
      · rw [step_of_fetch h (fetch_two hlo hop rfl) (decode_mul _ _ _)]
        exact stepCase_pair (fun i j hi hj => exec_mul hi hj) (fun i j hi hj => .mul i j hlo hop hi hj)
          exec_mul_bad_a (fun _ => exec_mul_bad_b)
      · rw [step_of_fetch h (fetch_two hlo hop rfl) (decode_cmp _ _ _)]
        exact stepCase_pair (fun i j hi hj => exec_cmp hi hj) (fun i j hi hj => .cmp i j hlo hop hi hj)
          exec_cmp_bad_a (fun _ => exec_cmp_bad_b)
    · exact ⟨_, step_unsupported h hlo rfl ha ht, .fault _ ⟨ha, ht⟩⟩
  · exact ⟨_, step_of_fetch_error h (fetch_two_beyond (by omega) hpc rfl (operandBytes_alu ha)), .fault _ (.inl rfl)⟩

/-- A step of a format R instruction (R58). -/
theorem step_cases_format_R {mk : Byte → Instr} (h : s.status = .running) (hpc : s.pc.toNat ≤ 255)
    (hop : Memory.read s.mem s.pc.toNat = op) (hn : operandBytes op = 1)
    (hd : ∀ a, decode [op, a] = .instr (mk a) [])
    (hgood : ∀ k, s.pc.toNat ≤ 254 → Selects (Memory.read s.mem (s.pc.toNat + 1)) k →
      ∃ t, exec (mk (Memory.read s.mem (s.pc.toNat + 1))) s = .next t ∧ StepCase s t)
    (hbad : ∀ r, NoRegister r → exec (mk r) s = .next (s.raise (.registerIndexFault r))) :
    ∃ t, step s = .next t ∧ StepCase s t := by
  by_cases hlo : s.pc.toNat ≤ 254
  · rw [step_of_fetch h (fetch_one hlo hop hn) (hd _)]
    exact stepCase_reg (fun k hk => hgood k hlo hk) (hbad _)
  · exact ⟨_, step_of_fetch_error h (fetch_one_beyond (by omega) hop hn), .fault _ (.inl rfl)⟩

theorem step_cases_control (h : s.status = .running) (hpc : s.pc.toNat ≤ 255)
    (ha : aluFlag (Memory.read s.mem s.pc.toNat) = false) : ∃ t, step s = .next t ∧ StepCase s t := by
  by_cases ht : Memory.read s.mem s.pc.toNat ∈ controlTable
  · simp only [controlTable, List.mem_cons, List.not_mem_nil, or_false] at ht
    rcases ht with hop | hop | hop | hop | hop | hop | hop | hop
    · by_cases hlo : s.pc.toNat ≤ 253
      · rw [step_of_fetch h (fetch_two hlo hop rfl) (decode_ldi _ _ _)]
        exact stepCase_reg (fun k hk => ⟨_, exec_ldi hk, .ldi k hlo hop hk⟩) exec_ldi_bad
      · exact ⟨_, step_of_fetch_error h (fetch_two_beyond (by omega) hpc hop rfl), .fault _ (.inl rfl)⟩
    · exact step_cases_format_R h hpc hop rfl (fun a => decode_prn a _)
        (fun k hlo hk => ⟨_, exec_prn hk, .prn k hlo hop hk⟩) (fun _ => exec_prn_bad)
    · exact step_cases_format_R h hpc hop rfl (fun a => decode_push a _)
        (fun k hlo hk => ⟨_, exec_push hk, .push k hlo hop hk⟩) (fun _ => exec_push_bad)
    · exact step_cases_format_R h hpc hop rfl (fun a => decode_pop a _)
        (fun k hlo hk => ⟨_, exec_pop hk, .pop k hlo hop hk⟩) (fun _ => exec_pop_bad)
    · rw [step_of_fetch h (fetch_none hpc hop rfl) (decode_hlt _)]
      exact ⟨_, exec_hlt, .hlt hpc hop⟩
    · refine step_cases_format_R h hpc hop rfl (fun a => decode_call a _) (fun k hlo hk => ?_) (fun _ => exec_call_bad)
      by_cases hmax : s.pc.toNat ≤ 253
      · exact ⟨_, exec_call hk hmax, .call k hmax hop hk⟩
      · exact ⟨_, exec_call_at_top hk (by omega), .fault _ (.inl (by omega))⟩
    · rw [step_of_fetch h (fetch_none hpc hop rfl) (decode_ret _)]
      exact ⟨_, exec_ret, .ret hpc hop⟩
    · exact step_cases_format_R h hpc hop rfl (fun a => decode_jmp a _)
        (fun k hlo hk => ⟨_, exec_jmp hk, .jmp k hlo hop hk⟩) (fun _ => exec_jmp_bad)
  · exact ⟨_, step_unknown h hpc rfl ha ht, .unknown _ hpc rfl ha ht⟩

/-- A step of a Running core goes one of the ways of `StepCase`. -/
theorem step_cases (h : s.status = .running) : ∃ t, step s = .next t ∧ StepCase s t := by
  by_cases hpc : s.pc.toNat ≤ 255
  · cases ha : aluFlag (Memory.read s.mem s.pc.toNat)
    · exact step_cases_control h hpc ha
    · exact step_cases_alu h hpc ha
  · have hgt : 255 < s.pc.toNat := by omega
    exact ⟨_, step_of_fetch_error h (fetch_beyond hgt), .fault _ (.inr ⟨rfl, hgt⟩)⟩

/-- The inversion of a step: a stopped engine holds its state, a Running one goes one of the ways of `StepCase`. -/
theorem step_inv {t : State} (h : step s = .next t) :
    (s.status ≠ .running ∧ t = s) ∨ (s.status = .running ∧ StepCase s t) := by
  by_cases hr : s.status = .running
  · obtain ⟨u, hu, hc⟩ := step_cases hr
    rw [h] at hu
    cases hu
    exact .inr ⟨hr, hc⟩
  · rw [step_of_stopped hr] at h
    cases h
    exact .inl ⟨hr, rfl⟩

end Sys2Proof.Machine
end

