-- ==== Sys2Proof/Tests/Slice0.lean ====
section
/-! SUPPORT. Tests: the well-formedness smoke test, the decoding of words written out from 30_encoding.md R61, single steps
from the vectors of 95_test_vectors.md, the two functions the host calls, and a witness of the hypotheses of every statement
that has some. -/

namespace Sys2Proof.Tests

open Sys2Proof.Machine

/-! ### Helpers -/

/-- The reset state with bytes at `pc`. -/
def atPc (pc : Byte) (bs : List Byte) : State := storeBytes pc.toNat bs (State.resetAt pc)

/-- `atPc` with one register set. -/
def atPcReg (pc : Byte) (bs : List Byte) (i : Fin 8) (v : Byte) : State := (atPc pc bs).writeReg i v

/-- A Running state with `pc = 256`, as after an instruction that ends at address 255. -/
def beyond : State := (State.resetAt 0).setPc 256

/-- The state a step answers, if it answers one. -/
def after (s : State) : Option State :=
  match step s with
  | .next t => some t
  | .fault _ => none
  | .refused _ => none

/-! ### Well-formedness: an ill-formed term for each check (R58, R59) -/

theorem test_wf_add_refuses_a : (Instr.add 8 0).wellFormed = false := by decide
theorem test_wf_add_refuses_b : (Instr.add 0 8).wellFormed = false := by decide
theorem test_wf_mul_refuses_a : (Instr.mul 255 0).wellFormed = false := by decide
theorem test_wf_mul_refuses_b : (Instr.mul 0 255).wellFormed = false := by decide
theorem test_wf_cmp_refuses_a : (Instr.cmp 9 7).wellFormed = false := by decide
theorem test_wf_cmp_refuses_b : (Instr.cmp 7 9).wellFormed = false := by decide
theorem test_wf_ldi_refuses_r : (Instr.ldi 8 0).wellFormed = false := by decide
theorem test_wf_prn_refuses_r : (Instr.prn 8).wellFormed = false := by decide
theorem test_wf_push_refuses_r : (Instr.push 8).wellFormed = false := by decide
theorem test_wf_pop_refuses_r : (Instr.pop 8).wellFormed = false := by decide
theorem test_wf_call_refuses_r : (Instr.call 8).wellFormed = false := by decide
theorem test_wf_jmp_refuses_r : (Instr.jmp 16).wellFormed = false := by decide

/-- Register 7 and any immediate are well-formed. -/
theorem test_wf_accepts : (Instr.add 7 7).wellFormed && (Instr.ldi 7 255).wellFormed && Instr.hlt.wellFormed = true := by
  decide

/-! ### Decoding, the bits written out from R61 and R58 -/

theorem test_decode_add : decode [0b10100000#8, 0b00000011#8, 0b00000101#8] = .instr (.add 3 5) [] := by decide
theorem test_decode_mul : decode [0b10100010#8, 0b00000000#8, 0b00000111#8] = .instr (.mul 0 7) [] := by decide
theorem test_decode_cmp : decode [0b10100111#8, 0b00000001#8, 0b00000010#8] = .instr (.cmp 1 2) [] := by decide
theorem test_decode_ldi : decode [0b10000010#8, 0b00000110#8, 0b11110000#8] = .instr (.ldi 6 0xF0) [] := by decide
theorem test_decode_prn : decode [0b01000111#8, 0b00000100#8] = .instr (.prn 4) [] := by decide
theorem test_decode_push : decode [0b01000101#8, 0b00000111#8] = .instr (.push 7) [] := by decide
theorem test_decode_pop : decode [0b01000110#8, 0b00000010#8] = .instr (.pop 2) [] := by decide
theorem test_decode_hlt : decode [0b00000001#8] = .instr .hlt [] := by decide
theorem test_decode_call : decode [0b01010000#8, 0b00000001#8] = .instr (.call 1) [] := by decide
theorem test_decode_ret : decode [0b00010001#8, 0b00000001#8] = .instr .ret [0b00000001#8] := by decide
theorem test_decode_jmp : decode [0b01010100#8, 0b00000011#8] = .instr (.jmp 3) [] := by decide

/-- 95_test_vectors.md 2.9 and 2.5: opcodes of the public LS-8 set that are not instructions of this core (D21). -/
theorem test_decode_rejects : decode [0x00] = .unknownControl 0x00 ∧ decode [0x55, 0] = .unknownControl 0x55 ∧
    decode [0xA1, 0, 1] = .unsupportedAlu 0xA1 ∧ decode [0x21] = .truncated 1 ∧ decode [0x82, 0] = .truncated 2 ∧
    decode [] = .truncated 0 := by decide

/-! ### The functions the host calls -/

theorem test_table_word_ldi : decodeTableWord 24 0x2A0082 = some (.ldi 0 42) := by decide

/-- The operand bits above the opcode are 0 when the table gives the row 8 bits. -/
theorem test_table_word_opcode_only : decodeTableWord 8 0x45 = some (.push 0) := by decide

theorem test_fetch_word_runs : (after (State.reset.withFetchWord 24 0x2A0082)).map (fun t => (t.readReg 0, t.pc)) =
    some (42, 3) := by decide

/-! ### Single steps, from 95_test_vectors.md (the vector's name in each comment) -/

/-- S5: 250 + 10 = 260 mod 256. -/
theorem test_add_wraps : (after ((atPcReg 0x10 [0xA0, 0, 1] 0 250).writeReg 1 10)).map
    (fun t => (t.readReg 0, t.readReg 1, t.fl, t.pc)) = some (4, 10, 0, 0x13) := by decide

/-- A7: ADD may rewrite SP. -/
theorem test_add_sp : (after (atPcReg 0 [0xA0, 7, 0] 0 0x10)).map State.sp = some 0x04 := by decide

/-- 2.3: 255 * 255 = 65025 mod 256. -/
theorem test_mul_wraps : (after ((atPcReg 0 [0xA2, 0, 1] 0 0xFF).writeReg 1 0xFF)).map
    (fun t => t.readReg 0) = some 0x01 := by decide

/-- 2.3: the same register squared, 400 mod 256. -/
theorem test_mul_same_register : (after (atPcReg 0 [0xA2, 0, 0] 0 0x14)).map
    (fun t => t.readReg 0) = some 0x90 := by decide

/-- 2.4: the comparison is unsigned, 128 > 127. -/
theorem test_cmp_unsigned : (after ((atPcReg 0 [0xA7, 0, 1] 0 0x80).writeReg 1 0x7F)).map State.fl =
    some 0b00000010 := by decide

/-- A8: E is cleared, not kept. -/
theorem test_cmp_clears : (after (((atPcReg 0 [0xA7, 0, 1] 0 0x04).writeReg 1 0x0A).setFl 1)).map State.fl =
    some 0b00000100 := by decide

/-- L3: LDI that ends at address 255 leaves `pc` at 256, Running. -/
theorem test_ldi_at_top : (after (atPc 0xFD [0x82, 3, 0xFF])).map (fun t => (t.readReg 3, t.pc, t.status)) =
    some (0xFF, 0x100, .running) := by decide

/-- L4: LDI whose immediate would lie at address 256. -/
theorem test_ldi_beyond : (after (atPc 0xFE [0x82, 3])).map (fun t => (t.status, t.faultCause, t.faultInfo, t.pc)) =
    some (.faulted, 1, 0x100, 0xFE) := by decide

/-- L8: PRN of SP. -/
theorem test_prn_sp : (after (atPc 5 [0x47, 7])).map (fun t => (t.out, t.pc)) = some ([244], 7) := by decide

/-- L9: PRN of no register. -/
theorem test_prn_bad : (after (atPc 5 [0x47, 9])).map (fun t => (t.out, t.faultCause, t.faultInfo)) =
    some ([], 2, 9) := by decide

/-- K2: SP wraps from 0 to 255. -/
theorem test_push_wraps : (after ((atPcReg 0x10 [0x45, 3] 3 0x77).writeReg 7 0)).map
    (fun t => (t.sp, Memory.read t.mem 0xFF, t.pc)) = some (0xFF, 0x77, 0x12) := by decide

/-- K3: PUSH R7 stores the decremented SP. -/
theorem test_push_sp : (after (atPc 0x10 [0x45, 7])).map (fun t => (t.sp, Memory.read t.mem 0xF3)) =
    some (0xF3, 0xF3) := by decide

/-- K4: POP reads the cell and leaves it. -/
theorem test_pop : (after (((atPc 0x10 [0x46, 1]).writeReg 7 0xF3).writeCell 0xF3 0x5A)).map
    (fun t => (t.readReg 1, t.sp, Memory.read t.mem 0xF3)) = some (0x5A, 0xF4, 0x5A) := by decide

/-- K6: POP R7 is the popped value plus 1. -/
theorem test_pop_sp : (after (((atPc 0x10 [0x46, 7]).writeReg 7 0xF3).writeCell 0xF3 0x20)).map State.sp =
    some 0x21 := by decide

/-- S6, L11: HLT alone. -/
theorem test_hlt : (after (atPc 0 [0x01])).map (fun t => (t.status, t.haltCause, t.pc, t.x)) =
    some (.halted, .hltInstruction, 1, #v[0, 0, 0, 0, 0, 0, 0, 0xF4]) := by decide

/-- T2: CALL R7 reads SP after the push. -/
theorem test_call_sp : (after (atPc 0x10 [0x50, 7])).map (fun t => (t.sp, Memory.read t.mem 0xF3, t.pc)) =
    some (0xF3, 0x12, 0xF3) := by decide

/-- T4: the return address 256 is no address. -/
theorem test_call_at_top : (after (atPcReg 0xFE [0x50, 1] 1 0x30)).map
    (fun t => (t.faultCause, t.faultInfo, t.sp, t.pc)) = some (1, 0x100, 0xF4, 0xFE) := by decide

/-- T9: RET takes the pushed address. -/
theorem test_ret : (after (((atPc 0x15 [0x11]).writeReg 7 0xF3).writeCell 0xF3 0x08)).map (fun t => (t.pc, t.sp)) =
    some (0x08, 0xF4) := by decide

/-- T11: RET with SP = 255. -/
theorem test_ret_wraps : (after (((atPc 0x15 [0x11]).writeReg 7 0xFF).writeCell 0xFF 0x80)).map
    (fun t => (t.pc, t.sp)) = some (0x80, 0x00) := by decide

/-- T14: JMP R7. -/
theorem test_jmp_sp : (after (atPc 3 [0x54, 7])).map (fun t => (t.pc, t.sp)) = some (0xF4, 0xF4) := by decide

/-- T15: JMP of no register. -/
theorem test_jmp_bad : (after (atPc 3 [0x54, 0x10])).map (fun t => (t.faultCause, t.faultInfo, t.pc)) =
    some (2, 0x10, 3) := by decide

/-- A4: the opcode is checked before the register indices. -/
theorem test_unsupported : (after (atPc 0 [0xA1, 9, 0x0A])).map (fun t => (t.status, t.faultCause, t.faultInfo)) =
    some (.faulted, 3, 0xA1) := by decide

/-- 2.9: CF at FE halts with `pc = 0x102`, no operand byte read. -/
theorem test_unknown_at_top : (after (atPc 0xFE [0xCF])).map (fun t => (t.status, t.haltCause, t.pc)) =
    some (.halted, .unknownOpcode, 0x102) := by decide

/-- 2.9: 55 at 20 halts with `pc` unchanged. -/
theorem test_unknown_setpc : (after (atPc 0x20 [0x55, 9, 9])).map (fun t => (t.haltCause, t.pc)) =
    some (.unknownOpcode, 0x20) := by decide

/-- N11: the debug read shows nothing above address 255. -/
theorem test_debug_read : (atPc 0xFE [0x47, 0]).debugRead.bytes = [some 0x47, some 0, none] := by decide

/-- R24, R27 to R29: after a CMP of equal registers the status interface shows E; the four values of R9 stand beside it. -/
theorem test_status_port : (after (atPc 0 [0xA7, 1, 1])).map State.statusPort = some ⟨3, 1, .running, .none, 0, 0⟩ := by
  decide

/-! ### A witness of the hypotheses of every statement that has some, each clause at a boundary of its range -/

/-- The word of `i` at `pc` of a canonical Running state, its last byte at address 255. -/
theorem witness_TableWordDecodesAndRuns : (State.resetAt 253).status = .running ∧
    (State.resetAt 253).pc.toNat + (encode (.ldi 0 42)).length ≤ 256 ∧ Memory.wf (State.resetAt 253).mem = true := by
  decide

theorem witness_AddWritesSumModulo256 : Selects 7 7 ∧ Selects 0 0 ∧ NoRegister 8 ∧ ¬ NoRegister 7 ∧
    (OpcodeAtPc 0xA0 (atPc 254 [0xA0]) ∧ 254 ≤ (atPc 254 [0xA0]).pc.toNat) ∧
    (OpcodeAtPc 0xA0 (atPc 255 [0xA0]) ∧ 254 ≤ (atPc 255 [0xA0]).pc.toNat) := by decide

theorem witness_MulWritesProductModulo256 : Selects 7 7 ∧ Selects 0 0 ∧ NoRegister 8 ∧ ¬ NoRegister 7 ∧
    (OpcodeAtPc 0xA2 (atPc 254 [0xA2]) ∧ 254 ≤ (atPc 254 [0xA2]).pc.toNat) ∧
    (OpcodeAtPc 0xA2 (atPc 255 [0xA2]) ∧ 254 ≤ (atPc 255 [0xA2]).pc.toNat) := by decide

theorem witness_CmpWritesThreeFlags : Selects 7 7 ∧ Selects 0 0 ∧ NoRegister 8 ∧ ¬ NoRegister 7 ∧
    (OpcodeAtPc 0xA7 (atPc 254 [0xA7]) ∧ 254 ≤ (atPc 254 [0xA7]).pc.toNat) ∧
    (OpcodeAtPc 0xA7 (atPc 255 [0xA7]) ∧ 254 ≤ (atPc 255 [0xA7]).pc.toNat) := by decide

theorem witness_CmpSwapExchangesLessAndGreater : Selects 0 0 ∧ Selects 7 7 ∧ FlagsLegal (State.reset.setFl 4) := by decide

theorem witness_LdiLoadsImmediate : Selects 7 7 ∧ NoRegister 8 ∧
    (OpcodeAtPc 0x82 (atPc 254 [0x82]) ∧ 254 ≤ (atPc 254 [0x82]).pc.toNat) ∧
    (OpcodeAtPc 0x82 (atPc 255 [0x82]) ∧ 254 ≤ (atPc 255 [0x82]).pc.toNat) := by decide

theorem witness_PrnEmitsRegister : Selects 7 7 ∧ NoRegister 8 ∧
    OpcodeAtPc 0x47 (atPc 255 [0x47]) ∧ 255 ≤ (atPc 255 [0x47]).pc.toNat := by decide

theorem witness_PushDecrementsThenStores : Memory.wf (State.reset.writeReg 7 0).mem = true := by decide

theorem witness_PushStoresBelowStackPointer : Selects 7 7 ∧ Selects 0 0 ∧ Memory.wf State.reset.mem = true ∧ NoRegister 8 ∧
    OpcodeAtPc 0x45 (atPc 255 [0x45]) ∧ 255 ≤ (atPc 255 [0x45]).pc.toNat := by decide

theorem witness_PopLoadsFromStackPointer : (Selects 6 6 ∧ (6 : Fin 8) ≠ 7) ∧ Selects 7 7 ∧ NoRegister 8 ∧
    OpcodeAtPc 0x46 (atPc 255 [0x46]) ∧ 255 ≤ (atPc 255 [0x46]).pc.toNat := by decide

/-- The state after a PUSH itself is one in which the POP may follow. -/
theorem witness_PushThenPopRestoresValue : ∃ t u : State, Selects 0 0 ∧ Selects 7 7 ∧ Selects 6 6 ∧
    Memory.wf State.reset.mem = true ∧ exec (.push 0) State.reset = .next t ∧
    u.sp = t.sp ∧ Memory.read u.mem u.sp.toNat = Memory.read t.mem t.sp.toNat :=
  ⟨_, _, by decide, by decide, by decide, by decide, rfl, rfl, rfl⟩

theorem witness_CallPushesReturnAddress :
    (Selects 7 7 ∧ (State.resetAt 253).pc.toNat ≤ 253 ∧ Memory.wf (State.resetAt 253).mem = true) ∧
    (Selects 0 0 ∧ 254 ≤ (State.resetAt 254).pc.toNat) ∧ NoRegister 8 ∧
    OpcodeAtPc 0x50 (atPc 255 [0x50]) ∧ 255 ≤ (atPc 255 [0x50]).pc.toNat := by decide

theorem witness_JmpLoadsProgramCounter : Selects 7 7 ∧ NoRegister 8 ∧
    OpcodeAtPc 0x54 (atPc 255 [0x54]) ∧ 255 ≤ (atPc 255 [0x54]).pc.toNat := by decide

theorem witness_CallThenRetReturns : ∃ t u : State, Selects 7 7 ∧ (State.resetAt 253).pc.toNat ≤ 253 ∧
    Memory.wf (State.resetAt 253).mem = true ∧ exec (.call 7) (State.resetAt 253) = .next t ∧
    u.sp = t.sp ∧ Memory.read u.mem u.sp.toNat = Memory.read t.mem t.sp.toNat :=
  ⟨_, _, by decide, by decide, by decide, rfl, rfl, rfl⟩

theorem witness_UnsupportedAluOpcodeFaults :
    (OpcodeAtPc 0xA1 (atPc 253 [0xA1]) ∧ (atPc 253 [0xA1]).pc.toNat ≤ 253) ∧
    (OpcodeAtPc 0xFF (atPc 254 [0xFF]) ∧ ¬ (atPc 254 [0xFF]).pc.toNat ≤ 253) ∧
    (0xA1 : Byte).getLsbD 5 = true ∧ (0xA1 : Byte) ∉ aluBytes ∧ (0xFF : Byte).getLsbD 5 = true ∧
    (0xFF : Byte) ∉ aluBytes := by decide

theorem witness_UnknownControlOpcodeHalts :
    (OpcodeAtPc 0xCF (atPc 255 [0xCF]) ∧ (0xCF : Byte).getLsbD 5 = false ∧ (0xCF : Byte) ∉ controlBytes) ∧
    (OpcodeAtPc 0x10 (atPc 0 [0x10]) ∧ (0x10 : Byte).getLsbD 5 = false ∧ (0x10 : Byte) ∉ controlBytes) := by decide

theorem witness_FetchBeyondMemoryFaults : beyond.status = .running ∧ 255 < beyond.pc.toNat := by decide

theorem witness_AccessIsCheckedAndReadsBack : 255 < 256 ∧ 255 ≤ 255 ∧ Memory.wf State.reset.mem = true := by decide

theorem witness_StepRunsDecodedInstruction : (atPc 253 [0xA0, 7, 8]).status = .running ∧
    BytesAtPc (encode (.add 7 8)) (atPc 253 [0xA0, 7, 8]) := by
  unfold BytesAtPc
  decide

/-- Both outcomes of the order are met: a fault and none. -/
theorem witness_FaultsFollowFixedOrder :
    ((atPc 254 [0x82, 9]).status = .running ∧ firstFault (atPc 254 [0x82, 9]) = some (.addressFault 256)) ∧
    ((atPc 253 [0x50, 7]).status = .running ∧ firstFault (atPc 253 [0x50, 7]) = none) := by decide

/-- Steps from Running to Halted, to Faulted and to Running, and from Halted. -/
theorem witness_StatusTransitions : ∃ t u v w,
    step (atPc 255 [0x01]) = .next t ∧ t.status = .halted ∧ step beyond = .next u ∧ u.status = .faulted ∧
    step (atPc 0 [0x82, 0, 1]) = .next v ∧ v.status = .running ∧ (atPc 255 [0x01]).status = .running ∧
    step (State.reset.halt .hltInstruction) = .next w ∧ (State.reset.halt .hltInstruction).status ≠ .running :=
  ⟨_, _, _, _, rfl, by decide, rfl, by decide, rfl, by decide, by decide, rfl, by decide⟩

theorem witness_StoppedStatesAreTerminal : (State.reset.halt .unknownOpcode).status ≠ .running ∧
    (State.reset.raise (.addressFault 256)).status ≠ .running ∧
    (∃ t, step (State.reset.raise (.addressFault 256)) = .next t) ∧
    (State.reset.raise (.addressFault 256)).faultCause ≠ 0 ∧
    (∃ t, step (State.reset.halt .unknownOpcode) = .next t) ∧ (State.reset.halt .unknownOpcode).haltCause ≠ .none :=
  ⟨by decide, by decide, ⟨_, rfl⟩, by decide, ⟨_, rfl⟩, by decide⟩

theorem witness_JumpToItselfNeverEnds : (atPcReg 254 [0x54, 0] 0 254).status = .running ∧
    BytesAtPc [0x54, 0] (atPcReg 254 [0x54, 0] 0 254) ∧ Selects 0 0 ∧
    ((atPcReg 254 [0x54, 0] 0 254).readReg 0).toNat = (atPcReg 254 [0x54, 0] 0 254).pc.toNat := by
  unfold BytesAtPc
  decide

/-- One opcode for each clause: 0xCF at address 255, 0x10, RET, JMP, CALL. -/
theorem witness_PcUpdateFollowsOpcodeBit4 :
    (∃ t, step (atPc 255 [0xCF]) = .next t ∧ t.status ≠ .faulted) ∧ (0xCF : Byte).getLsbD 4 = false ∧
    (∃ t, step (atPc 255 [0x10]) = .next t ∧ t.status ≠ .faulted) ∧ (0x10 : Byte).getLsbD 4 = true ∧
    (∃ t, step (atPc 255 [0x11]) = .next t ∧ t.status ≠ .faulted) ∧
    (∃ t, step (atPc 254 [0x54, 7]) = .next t ∧ t.status ≠ .faulted) ∧
    (∃ t, step (atPc 253 [0x50, 7]) = .next t ∧ t.status ≠ .faulted) :=
  ⟨⟨_, rfl, by decide⟩, by decide, ⟨_, rfl, by decide⟩, by decide, ⟨_, rfl, by decide⟩, ⟨_, rfl, by decide⟩,
    ⟨_, rfl, by decide⟩⟩

theorem witness_OnlyCmpTouchesFlags :
    (∃ t, step (atPc 253 [0xA0, 0, 7]) = .next t) ∧ ¬ OpcodeAtPc 0xA7 (atPc 253 [0xA0, 0, 7]) ∧
    (∃ t, step (atPc 253 [0xA7, 0, 7]) = .next t ∧ t.status ≠ .faulted) ∧ OpcodeAtPc 0xA7 (atPc 253 [0xA7, 0, 7]) :=
  ⟨⟨_, rfl⟩, by decide, ⟨_, rfl, by decide⟩, by decide⟩

theorem witness_RecordsNeverInfluenceExecution : SameInputs (atPc 0 [0x47, 7]) (((atPc 0 [0x47, 7]).setFl 4).emit 9) ∧
    (atPc 0 [0x47, 7]) ≠ (((atPc 0 [0x47, 7]).setFl 4).emit 9) := by decide

theorem witness_OutputGrowsOnlyByPrn :
    (∃ t, step (atPc 254 [0x47, 7]) = .next t ∧ OpcodeAtPc 0x47 (atPc 254 [0x47, 7]) ∧ t.status ≠ .faulted) ∧
    (∃ t, step (atPc 255 [0x47]) = .next t ∧ ¬ (OpcodeAtPc 0x47 (atPc 255 [0x47]) ∧ t.status ≠ .faulted)) :=
  ⟨⟨_, rfl, by decide, by decide⟩, ⟨_, rfl, by decide⟩⟩

theorem witness_StepWritesAtMostOneCell : (∃ t, step (atPc 254 [0x46, 7]) = .next t) ∧
    ¬ OpcodeAtPc 0x45 (atPc 254 [0x46, 7]) ∧ ¬ OpcodeAtPc 0x50 (atPc 254 [0x46, 7]) :=
  ⟨⟨_, rfl⟩, by decide, by decide⟩

theorem witness_StepChangesOnlyNamedRegisters :
    (∃ t, step (atPc 253 [0x82, 0, 1]) = .next t ∧ t.readReg 0 ≠ (atPc 253 [0x82, 0, 1]).readReg 0) ∧
    (∃ t, step (atPc 255 [0x11]) = .next t ∧ t.readReg 7 ≠ (atPc 255 [0x11]).readReg 7) :=
  ⟨⟨_, rfl, by decide⟩, ⟨_, rfl, by decide⟩⟩

/-- P5: SP = 9, PUSH at 6. -/
theorem witness_StoredByteIsFetchedNext : (atPcReg 6 [0x45, 0] 7 9).status = .running ∧
    Memory.wf (atPcReg 6 [0x45, 0] 7 9).mem = true ∧ BytesAtPc [0x45, 0] (atPcReg 6 [0x45, 0] 7 9) ∧ Selects 0 0 ∧
    stackAddress (decSp (atPcReg 6 [0x45, 0] 7 9)) = (atPcReg 6 [0x45, 0] 7 9).pc.toNat + 2 := by
  unfold BytesAtPc
  decide

/-- T8: SP = 12, CALL at 10. -/
theorem witness_CallUsesOperandReadBeforePush : (atPcReg 0x10 [0x50, 2] 7 0x12).status = .running ∧
    Memory.wf (atPcReg 0x10 [0x50, 2] 7 0x12).mem = true ∧ (atPcReg 0x10 [0x50, 2] 7 0x12).pc.toNat ≤ 253 ∧
    BytesAtPc [0x50, 2] (atPcReg 0x10 [0x50, 2] 7 0x12) ∧ Selects 2 2 ∧
    stackAddress (decSp (atPcReg 0x10 [0x50, 2] 7 0x12)) = (atPcReg 0x10 [0x50, 2] 7 0x12).pc.toNat + 1 := by
  unfold BytesAtPc
  decide

theorem witness_StepKeepsCanonicalMemory : Memory.wf (atPc 254 [0x45, 7]).mem = true ∧
    ∃ t, step (atPc 254 [0x45, 7]) = .next t := ⟨by decide, _, rfl⟩

/-- A state with code in memory meets the invariant and has a next state. -/
theorem witness_StepKeepsInvariant : CoreInv (atPc 254 [0x50, 1]) ∧ ∃ t, step (atPc 254 [0x50, 1]) = .next t :=
  ⟨⟨by decide, by decide, by unfold StatusCoherent; exact ⟨by decide, rfl, rfl, rfl⟩⟩, _, rfl⟩

/-- A launch state and the state after its first step are reachable. -/
theorem witness_ReachableStatesAreBounded : Reachable (State.launch [(0, 0x82), (2, 0x2A)] 0) ∧
    ∃ t, step (State.launch [(0, 0x82), (2, 0x2A)] 0) = .next t ∧ Reachable t :=
  ⟨.launch _ _, _, rfl,
    .step (.launch _ _) (rfl : step (State.launch [(0, 0x82), (2, 0x2A)] 0) = _)⟩

end Sys2Proof.Tests
end

/-! PROOFS. FL is written by CMP alone and read by no instruction (10_state.md R24). -/

namespace Sys2Proof.Machine

variable {s t : State}

/-! ### What a step writes into FL -/

/-- Of all the ways a step can go, only an executed CMP writes FL (R24). -/
theorem StepCase.fl_eq_of_opcode_ne_cmp (h : StepCase s t)
    (hne : ¬ (s.pc.toNat ≤ 255 ∧ Memory.read s.mem s.pc.toNat = opcCmp)) : t.fl = s.fl := by
  cases h with
  | cmp i j hpc hop => exact absurd ⟨by omega, hop⟩ hne
  | unknown op => rw [State.updatePc_eq]; rfl
  | fault | add | mul | ldi | prn | push | pop | hlt | call | ret | jmp => rfl

/-- A step at a CMP opcode that does not fault executes the CMP (R90). -/
theorem StepCase.fl_eq_compareFlags_of_opcode_cmp (h : StepCase s t) (hnf : t.status ≠ .faulted)
    (hcmp : Memory.read s.mem s.pc.toNat = opcCmp) :
    ∃ i j, Selects (Memory.read s.mem (s.pc.toNat + 1)) i ∧ Selects (Memory.read s.mem (s.pc.toNat + 2)) j ∧
      t.fl = compareFlags s.fl (s.readReg i) (s.readReg j) := by
  cases h with
  | cmp i j _ _ hi hj => exact ⟨i, j, hi, hj, rfl⟩
  | fault => exact absurd rfl hnf
  | unknown op _ hop ha =>
    obtain rfl : op = opcCmp := hop.symm.trans hcmp
    exact absurd ha (by decide)
  | add _ _ _ hop | mul _ _ _ hop | ldi _ _ hop | prn _ _ hop | push _ _ hop | pop _ _ hop | hlt _ hop
  | call _ _ hop | ret _ hop | jmp _ _ hop => exact absurd (hop.symm.trans hcmp) (by decide)

theorem step_fl_eq_of_not_cmp (h : step s = .next t) (hne : ¬ OpcodeAtPc opcCmp s) : t.fl = s.fl := by
  rcases step_inv h with ⟨_, rfl⟩ | ⟨hr, hc⟩
  · rfl
  · exact hc.fl_eq_of_opcode_ne_cmp fun hop => hne ⟨hr, hop⟩

theorem step_fl_eq_compareFlags_of_cmp (h : step s = .next t) (hnf : t.status ≠ .faulted)
    (hop : OpcodeAtPc opcCmp s) :
    ∃ i j, Selects (Memory.read s.mem (s.pc.toNat + 1)) i ∧ Selects (Memory.read s.mem (s.pc.toNat + 2)) j ∧
      t.fl = compareFlags s.fl (s.readReg i) (s.readReg j) := by
  obtain ⟨hr, _, hcmp⟩ := hop
  rcases step_inv h with ⟨hstop, _⟩ | ⟨_, hc⟩
  · exact absurd hr hstop
  · exact hc.fl_eq_compareFlags_of_opcode_cmp hnf hcmp

/-! ### No step reads FL -/

/-- `m` answers from `s` and from `s` with `f` in FL, and the two next states differ in FL at most. -/
def FlUnread (m : State → Host.Outcome State Fault Refusal) (s : State) (f : Byte) : Prop :=
  ∃ t g, m s = .next t ∧ m (s.setFl f) = .next (t.setFl g)

variable {f : Byte}

theorem readOperands_setFl (n addr : Nat) : readOperands n addr (s.setFl f) = readOperands n addr s := by
  induction n generalizing addr with
  | zero => rfl
  | succ n ih =>
    have hmem : memRead addr (s.setFl f) = memRead addr s := rfl
    simp only [readOperands, ih, hmem]

theorem fetch_setFl : fetch (s.setFl f) = fetch s := by
  have hmem : memRead s.pc.toNat (s.setFl f) = memRead s.pc.toNat s := rfl
  simp only [fetch, State.setFl_pc, readOperands_setFl, hmem]

theorem State.updatePc_setFl (op : Byte) : (s.setFl f).updatePc op = (s.updatePc op).setFl f := by
  simp only [State.updatePc_eq]
  rfl

/-- A raise does not read FL (R119). -/
theorem flUnread_of_raise {m : State → Host.Outcome State Fault Refusal} {e : Fault}
    (h : ∀ u, m u = .next (u.raise e)) : FlUnread m s f :=
  ⟨s.raise e, f, h s, h (s.setFl f)⟩

/-- A one-register instruction reads no FL if it reads none where its operand is good. -/
theorem flUnread_reg {i : Instr} {r : Byte} (hgood : ∀ k, Selects r k → FlUnread (exec i) s f)
    (hbad : NoRegister r → ∀ u, exec i u = .next (u.raise (.registerIndexFault r))) : FlUnread (exec i) s f := by
  rcases selects_or_noRegister r with ⟨k, hk⟩ | hr
  · exact hgood k hk
  · exact flUnread_of_raise (hbad hr)

/-- A register-pair instruction reads no FL if it reads none where both operands are good. -/
theorem flUnread_pair {mk : Byte → Byte → Instr} {a b : Byte}
    (hgood : ∀ i j, Selects a i → Selects b j → FlUnread (exec (mk a b)) s f)
    (hbada : NoRegister a → ∀ u, exec (mk a b) u = .next (u.raise (.registerIndexFault a)))
    (hbadb : ∀ i, Selects a i → NoRegister b → ∀ u, exec (mk a b) u = .next (u.raise (.registerIndexFault b))) :
    FlUnread (exec (mk a b)) s f :=
  flUnread_reg (fun i hi => flUnread_reg (fun j hj => hgood i j hi hj) (hbadb i hi)) hbada

theorem exec_flUnread_call (r : Byte) : FlUnread (exec (.call r)) s f := by
  refine flUnread_reg (fun k hk => ?_) fun h _ => exec_call_bad h
  by_cases hpc : s.pc.toNat ≤ 253
  · exact ⟨_, f, exec_call hk hpc, exec_call (s := s.setFl f) hk hpc⟩
  · have hge : 254 ≤ s.pc.toNat := by omega
    exact ⟨_, f, exec_call_at_top hk hge, exec_call_at_top (s := s.setFl f) hk hge⟩

/-- No instruction reads FL (R24): CMP leaves other flags in bits 7..3 at most, every other instruction the `f` it found. -/
theorem exec_flUnread (i : Instr) : FlUnread (exec i) s f := by
  cases i with
  | add a b =>
    exact flUnread_pair (fun _ _ hi hj => ⟨_, f, exec_add hi hj, exec_add hi hj⟩)
      (fun h _ => exec_add_bad_a h) fun _ hi h _ => exec_add_bad_b hi h
  | mul a b =>
    exact flUnread_pair (fun _ _ hi hj => ⟨_, f, exec_mul hi hj, exec_mul hi hj⟩)
      (fun h _ => exec_mul_bad_a h) fun _ hi h _ => exec_mul_bad_b hi h
  | cmp a b =>
    exact flUnread_pair
      (fun i j hi hj => ⟨_, compareFlags f (s.readReg i) (s.readReg j), exec_cmp hi hj, exec_cmp hi hj⟩)
      (fun h _ => exec_cmp_bad_a h) fun _ hi h _ => exec_cmp_bad_b hi h
  | ldi r imm => exact flUnread_reg (fun _ hk => ⟨_, f, exec_ldi hk, exec_ldi hk⟩) fun h _ => exec_ldi_bad h
  | prn r => exact flUnread_reg (fun _ hk => ⟨_, f, exec_prn hk, exec_prn hk⟩) fun h _ => exec_prn_bad h
  | push r => exact flUnread_reg (fun _ hk => ⟨_, f, exec_push hk, exec_push hk⟩) fun h _ => exec_push_bad h
  | pop r => exact flUnread_reg (fun _ hk => ⟨_, f, exec_pop hk, exec_pop hk⟩) fun h _ => exec_pop_bad h
  | hlt => exact ⟨_, f, exec_hlt, exec_hlt⟩
  | call r => exact exec_flUnread_call r
  | ret => exact ⟨_, f, exec_ret, exec_ret⟩
  | jmp r => exact flUnread_reg (fun _ hk => ⟨_, f, exec_jmp hk, exec_jmp hk⟩) fun h _ => exec_jmp_bad h

theorem haltUnknown_flUnread (op : Byte) : FlUnread (haltUnknown op) s f :=
  ⟨_, f, rfl, congrArg Host.Outcome.next (State.updatePc_setFl (s := s.halt .unknownOpcode) op)⟩

theorem runInstruction_flUnread : FlUnread runInstruction s f := by
  simp only [FlUnread, runInstruction, fetch_setFl]
  cases fetch s with
  | error e => exact ⟨s.raise e, f, rfl, rfl⟩
  | ok bytes =>
    cases hd : decode bytes with
    | instr i _ => simp only [hd]; exact exec_flUnread i
    | unknownControl op => simp only [hd]; exact haltUnknown_flUnread op
    | unsupportedAlu op => simp only [hd]; exact ⟨s.raise (.unsupportedAluOp op), f, rfl, rfl⟩
    | truncated k => simp only [hd]; exact ⟨s.raise (.addressFault (s.pc.toNat + k)), f, rfl, rfl⟩

/-- No step reads FL (R24). -/
theorem step_flUnread : FlUnread step s f := by
  by_cases hr : s.status = .running
  · obtain ⟨t, g, ht, hu⟩ := runInstruction_flUnread (s := s) (f := f)
    exact ⟨t, g, (step_of_running hr).trans ht, (step_of_running (s := s.setFl f) hr).trans hu⟩
  · exact ⟨s, f, step_of_stopped hr, step_of_stopped (s := s.setFl f) hr⟩

theorem step_setFl (h : step s = .next t) (f : Byte) : ∃ u, step (s.setFl f) = .next u ∧ u.setFl t.fl = t := by
  obtain ⟨t', g, ht, hu⟩ := step_flUnread (s := s) (f := f)
  obtain rfl : t' = t := by simpa only [ht, Host.Outcome.next.injEq] using h
  exact ⟨_, hu, rfl⟩

/-- Settles O34, from what each way a step can go writes into FL (`StepCase`) and from `FlUnread` of the step. -/
theorem onlyCmpTouchesFlags : Obligations.OnlyCmpTouchesFlags := by
  refine ⟨fun _ => rfl, fun _ _ h hne => step_fl_eq_of_not_cmp h hne, fun _ _ h hnf hop => ?_,
    fun _ _ f h => step_setFl h f, fun s => ⟨s.statusPort_fl, by rw [State.debugRead_allState]⟩⟩
  obtain ⟨i, j, hi, hj, hfl⟩ := step_fl_eq_compareFlags_of_cmp h hnf hop
  refine ⟨i, j, hi, hj, ?_, ?_, ?_⟩ <;> rw [hfl, compareFlags_getLsbD] <;> rfl

end Sys2Proof.Machine

/-! PROOFS. The loop's `pc` update by bit 4 of the opcode (40_step_cycle.md R79 to R81; targets of R107 to R109). -/

namespace Sys2Proof.Machine

variable {s t : State} {op : Byte}

/-! ### The update itself (R79) -/

theorem State.updatePc_pc_of_bit4_set (h : op.getLsbD 4 = true) : (s.updatePc op).pc = s.pc := by
  simp [State.updatePc_eq, setPcFlag_eq, h]

/-- From an address of memory the 9-bit addition of a length does not wrap (D2). -/
theorem State.updatePc_pc_toNat_of_bit4_clear (h : op.getLsbD 4 = false) (hpc : s.pc.toNat ≤ 255) :
    (s.updatePc op).pc.toNat = s.pc.toNat + instrLen op := by
  have hlen := instrLen_le op
  simp only [State.updatePc_eq, setPcFlag_eq, h, Bool.false_eq_true, if_false, State.setPc_pc, BitVec.toNat_add,
    BitVec.toNat_ofNat]
  omega

/-! ### Who writes `pc` in a step -/

/-- The loop's update writes `pc` in every step that does not fault, but for CALL, RET and JMP, whose handlers write it
(R79, R107 to R109). -/
theorem StepCase.pc_cases (h : StepCase s t) (hnf : t.status ≠ .faulted) :
    (Memory.read s.mem s.pc.toNat ∉ [opcCall, opcRet, opcJmp] ∧ s.pc.toNat ≤ 255 ∧
      t.pc = (s.updatePc (Memory.read s.mem s.pc.toNat)).pc) ∨
    (Memory.read s.mem s.pc.toNat = opcCall ∧
      ∃ i, Selects (Memory.read s.mem (s.pc.toNat + 1)) i ∧ t.pc.toNat = ((decSp s).readReg i).toNat) ∨
    (Memory.read s.mem s.pc.toNat = opcRet ∧ t.pc.toNat = (Memory.read s.mem (stackAddress s)).toNat) ∨
    (Memory.read s.mem s.pc.toNat = opcJmp ∧
      ∃ i, Selects (Memory.read s.mem (s.pc.toNat + 1)) i ∧ t.pc.toNat = (s.readReg i).toNat) := by
  cases h with
  | fault => exact absurd rfl hnf
  | unknown op hpc hop _ ht =>
    subst hop
    have hsub : [opcCall, opcRet, opcJmp] ⊆ controlTable := by decide
    exact .inl ⟨fun hm => ht (hsub hm), hpc, by simp only [State.updatePc_eq]; rfl⟩
  | add _ _ _ hop | mul _ _ _ hop | cmp _ _ _ hop | ldi _ _ hop | prn _ _ hop | push _ _ hop | pop _ _ hop
  | hlt _ hop => exact .inl (hop ▸ ⟨by decide, by omega, rfl⟩)
  | call i _ hop hi => exact .inr (.inl ⟨hop, i, hi, jumpTo_pc_toNat _ _⟩)
  | ret _ hop => exact .inr (.inr (.inl ⟨hop, jumpTo_pc_toNat s _⟩))
  | jmp i _ hop hi => exact .inr (.inr (.inr ⟨hop, i, hi, jumpTo_pc_toNat _ _⟩))

/-- The register that CALL reads after its push: with `r = 7` the decremented SP (R107). -/
theorem decSp_readReg_toNat (s : State) (i : Fin 8) :
    ((decSp s).readReg i).toNat = if i = 7 then (s.sp.toNat + 255) % 256 else (s.readReg i).toNat := by
  rw [decSp_readReg, apply_ite BitVec.toNat, toNat_sub_one]

/-- Settles O33, from the writer of `pc` in each way a step can go (`StepCase.pc_cases`): the loop by bit 4 of the opcode, or
the handler of CALL, RET or JMP. -/
theorem pcUpdateFollowsOpcodeBit4 : Obligations.PcUpdateFollowsOpcodeBit4 := by
  rintro s t hr h hnf op rfl
  rcases step_inv h with ⟨hstop, _⟩ | ⟨_, hc⟩
  · exact absurd hr hstop
  rcases hc.pc_cases hnf with ⟨hother, hle, hpc⟩ | ⟨hop, i, hi, hpc⟩ | ⟨hop, hpc⟩ | ⟨hop, i, hi, hpc⟩
  · simp only [List.mem_cons, List.not_mem_nil, or_false, not_or] at hother
    obtain ⟨hcall, hret, hjmp⟩ := hother
    refine ⟨fun hbit => ?_, fun hbit _ _ _ => ?_, fun hop => absurd hop hret, fun hop => absurd hop hjmp,
      fun hop => absurd hop hcall⟩
    · have hlen := instrLen_le (Memory.read s.mem s.pc.toNat)
      rw [hpc, State.updatePc_pc_toNat_of_bit4_clear hbit hle]
      exact ⟨by rw [instrLen_eq, Nat.add_assoc], by omega⟩
    · rw [hpc, State.updatePc_pc_of_bit4_set hbit]
  · rw [hop]
    exact ⟨fun hbit => absurd hbit (by decide), fun _ hne => absurd rfl hne, fun heq => absurd heq (by decide),
      fun heq => absurd heq (by decide), fun _ => ⟨i, hi, hpc.trans (decSp_readReg_toNat s i)⟩⟩
  · rw [hop]
    exact ⟨fun hbit => absurd hbit (by decide), fun _ _ hne => absurd rfl hne, fun _ => hpc,
      fun heq => absurd heq (by decide), fun heq => absurd heq (by decide)⟩
  · rw [hop]
    exact ⟨fun hbit => absurd hbit (by decide), fun _ _ _ hne => absurd rfl hne, fun heq => absurd heq (by decide),
      fun _ => ⟨i, hi, hpc⟩, fun heq => absurd heq (by decide)⟩

end Sys2Proof.Machine

/-! PROOFS. The ALU instructions ADD, MUL and CMP, and the ALU-flagged opcodes that are none of them (41_alu.md R87 to
R91). -/

namespace Sys2Proof.Machine

variable {s : State} {op a b : Byte}

/-! ### Faults -/

theorem exists_raised_of_eq_raise {o : Host.Outcome State Fault Refusal} {f : Fault} (h : o = .next (s.raise f)) :
    ∃ t, o = .next t ∧ Raised f s t :=
  ⟨_, h, raised_raise f s⟩

/-- An ALU-flagged opcode needs two operand bytes, whatever it is: at 254 and 255 one of them lies at 256 (R76, R117). -/
theorem step_alu_operands_beyond (h : OpcodeAtPc op s) (ha : aluFlag op = true) (hpc : 254 ≤ s.pc.toNat) :
    step s = .next (s.raise (.addressFault 256)) := by
  obtain ⟨hr, hle, hop⟩ := h
  exact step_of_fetch_error hr (fetch_two_beyond hpc hle hop (operandBytes_alu ha))

/-- An ALU instruction has the faults of its format if it checks `a` and then `b` (R87, R88). -/
theorem registerPairFaults_of_alu {mk : Byte → Byte → Instr} (ha : aluFlag op = true)
    (hbada : NoRegister a → exec (mk a b) s = .next (s.raise (.registerIndexFault a)))
    (hbadb : ∀ i, Selects a i → NoRegister b → exec (mk a b) s = .next (s.raise (.registerIndexFault b))) :
    RegisterPairFaults mk op a b s := by
  refine ⟨fun hna => exists_raised_of_eq_raise (hbada hna), fun hna hnb => ?_,
    fun hop hpc => exists_raised_of_eq_raise (step_alu_operands_beyond hop ha hpc)⟩
  obtain ⟨i, hi⟩ := (selects_or_noRegister a).resolve_right hna
  exact exists_raised_of_eq_raise (hbadb i hi hnb)

/-! ### Frames -/

/-- Writing a register and `pc` keeps everything else. -/
theorem State.setPc_writeReg_frame (s : State) (i : Fin 8) (v : Byte) (p : Addr9) :
    RegsKeptBut [i] s ((s.writeReg i v).setPc p) ∧ ((s.writeReg i v).setPc p).fl = s.fl ∧
      MemoryKept s ((s.writeReg i v).setPc p) ∧ ((s.writeReg i v).setPc p).out = s.out ∧
      StatusKept s ((s.writeReg i v).setPc p) ∧ ((s.writeReg i v).setPc p).pc = p :=
  ⟨fun _ hne => State.readReg_writeReg_of_ne s (List.ne_of_not_mem_cons hne) v, rfl, fun _ => rfl, rfl,
    ⟨rfl, rfl, rfl, rfl⟩, rfl⟩

/-- Writing FL and `pc` keeps everything else. -/
theorem State.setPc_setFl_frame (s : State) (f : Byte) (p : Addr9) :
    RegsKeptBut [] s ((s.setFl f).setPc p) ∧ MemoryKept s ((s.setFl f).setPc p) ∧
      ((s.setFl f).setPc p).out = s.out ∧ StatusKept s ((s.setFl f).setPc p) ∧ ((s.setFl f).setPc p).pc = p :=
  ⟨fun _ _ => rfl, fun _ => rfl, rfl, ⟨rfl, rfl, rfl, rfl⟩, rfl⟩

/-- A comparison keeps bits 7..3 of FL (R25, R90). -/
theorem compareFlags_getLsbD_of_ge_three (fl u v : Byte) {k : Nat} (hk : 3 ≤ k) :
    (compareFlags fl u v).getLsbD k = fl.getLsbD k := by
  rw [compareFlags_getLsbD, if_neg (by omega), if_neg (by omega), if_neg (by omega)]

/-! ### ADD, MUL, CMP -/

/-- Settles O7, from the state an executed ADD leaves, its frame, and the faults of its format. -/
theorem addWritesSumModulo256 : Obligations.AddWritesSumModulo256 := by
  refine fun s a b => ⟨rfl, fun i j hi hj => ⟨_, exec_add hi hj, ?_, State.setPc_writeReg_frame s i _ _⟩,
    registerPairFaults_of_alu rfl exec_add_bad_a fun _ => exec_add_bad_b⟩
  rw [State.readReg_setPc, State.readReg_writeReg_self, BitVec.toNat_add]

/-- Settles O8, from the state an executed MUL leaves, its frame, and the faults of its format. -/
theorem mulWritesProductModulo256 : Obligations.MulWritesProductModulo256 := by
  refine fun s a b => ⟨rfl, fun i j hi hj => ⟨_, exec_mul hi hj, ?_, State.setPc_writeReg_frame s i _ _⟩,
    registerPairFaults_of_alu rfl exec_mul_bad_a fun _ => exec_mul_bad_b⟩
  rw [State.readReg_setPc, State.readReg_writeReg_self, BitVec.toNat_mul]

/-- Settles O9, from the bits of FL after a comparison, the frame of a write to FL, and the faults of the format. -/
theorem cmpWritesThreeFlags : Obligations.CmpWritesThreeFlags := by
  refine fun s a b => ⟨rfl, fun i j hi hj => ⟨_, exec_cmp hi hj, ?less, ?greater, ?equal,
      fun k hk => compareFlags_getLsbD_of_ge_three _ _ _ hk, State.setPc_setFl_frame s _ _⟩,
    registerPairFaults_of_alu rfl exec_cmp_bad_a fun _ => exec_cmp_bad_b⟩
  case less => exact compareFlags_getLsbD _ _ _ 2
  case greater => exact compareFlags_getLsbD _ _ _ 1
  case equal => exact compareFlags_getLsbD _ _ _ 0

/-! ### Unsupported ALU opcodes (R91) -/

/-- The ALU dispatcher recognises the opcode bytes of R61. -/
theorem aluTable_eq_aluBytes : aluTable = aluBytes := rfl

/-- Settles O23: below 254 both operand bytes are read and the opcode is rejected, from 254 on the operand fetch faults
first; the census is counted over the 256 byte values. -/
theorem unsupportedAluOpcodeFaults : Obligations.UnsupportedAluOpcodeFaults := by
  refine ⟨fun s op hop hbit hnot => ?_, by decide +kernel⟩
  have ha : aluFlag op = true := (aluFlag_eq op).trans hbit
  split
  case isTrue hpc =>
    obtain ⟨hr, _, hread⟩ := hop
    exact exists_raised_of_eq_raise (step_unsupported hr hpc hread ha (aluTable_eq_aluBytes ▸ hnot))
  case isFalse hpc => exact exists_raised_of_eq_raise (step_alu_operands_beyond hop ha (by omega))

end Sys2Proof.Machine

/-! PROOFS. LDI and PRN, and the stack primitives push and pop (42_control_data_stack.md R97 to R100). -/

namespace Sys2Proof.Machine

variable {s : State} {op r : Byte} {i : Instr}

/-! ### Faults of a control instruction with a register operand -/

/-- A control instruction has the faults of its format if it checks its register and its operand fetch fails from `top` on
(R76, R118). -/
theorem registerFaults_of_fetch_beyond {top : Nat}
    (hbad : NoRegister r → exec i s = .next (s.raise (.registerIndexFault r)))
    (hbeyond : top ≤ s.pc.toNat → s.pc.toNat ≤ 255 → Memory.read s.mem s.pc.toNat = op →
      fetch s = .error (.addressFault 256)) : RegisterFaults i op r top s := by
  refine ⟨fun hr => exists_raised_of_eq_raise (hbad hr), fun ⟨hrun, hle, hop⟩ hpc => ?_⟩
  exact exists_raised_of_eq_raise (step_of_fetch_error hrun (hbeyond hpc hle hop))

theorem registerFaults_of_one_operand (hn : operandBytes op = 1)
    (hbad : NoRegister r → exec i s = .next (s.raise (.registerIndexFault r))) : RegisterFaults i op r 255 s :=
  registerFaults_of_fetch_beyond hbad fun hpc hle hop => fetch_one_beyond (le_antisymm hle hpc) hop hn

theorem registerFaults_of_two_operands (hn : operandBytes op = 2)
    (hbad : NoRegister r → exec i s = .next (s.raise (.registerIndexFault r))) : RegisterFaults i op r 254 s :=
  registerFaults_of_fetch_beyond hbad fun hpc hle hop => fetch_two_beyond hpc hle hop hn

/-! ### LDI and PRN -/

/-- Appending to `out` and writing `pc` keeps everything else. -/
theorem State.setPc_emit_frame (s : State) (v : Byte) (p : Addr9) :
    RegsKeptBut [] s ((s.emit v).setPc p) ∧ ((s.emit v).setPc p).fl = s.fl ∧ MemoryKept s ((s.emit v).setPc p) ∧
      StatusKept s ((s.emit v).setPc p) ∧ ((s.emit v).setPc p).pc = p :=
  ⟨fun _ _ => rfl, rfl, fun _ => rfl, ⟨rfl, rfl, rfl, rfl⟩, rfl⟩

/-- Settles O11, from the state an executed LDI leaves, its frame, and the faults of its format. -/
theorem ldiLoadsImmediate : Obligations.LdiLoadsImmediate := by
  refine fun s r imm => ⟨rfl, fun i hi => ⟨_, exec_ldi hi, ?_, State.setPc_writeReg_frame s i _ _⟩,
    registerFaults_of_two_operands rfl exec_ldi_bad⟩
  rw [State.readReg_setPc, State.readReg_writeReg_self]

/-- Settles O12, from the state an executed PRN leaves, its frame, and the faults of its format. -/
theorem prnEmitsRegister : Obligations.PrnEmitsRegister := fun s _ =>
  ⟨rfl, fun _ hi => ⟨_, exec_prn hi, rfl, State.setPc_emit_frame s _ _⟩,
    registerFaults_of_one_operand rfl exec_prn_bad⟩

/-! ### The push primitive (R99) -/

theorem decSp_readReg_of_ne (s : State) {i : Fin 8} (h : i ≠ 7) : (decSp s).readReg i = s.readReg i := by
  rw [decSp_readReg, if_neg h]

/-- A push changes SP and no other register. -/
theorem regsKeptBut_pushed (s : State) (a : Nat) (v : Byte) : RegsKeptBut [7] s ((decSp s).writeCell a v) :=
  fun _ hne => (State.readReg_writeCell _ a v _).trans (decSp_readReg_of_ne s (List.ne_of_not_mem_cons hne))

/-- A push changes the cell it stores to and no other. -/
theorem memoryKeptBut_pushed (s : State) (a : Nat) (v : Byte) : MemoryKeptBut a s ((decSp s).writeCell a v) :=
  fun _ hne => Memory.read_write_of_ne s.mem v hne

/-- Settles O13: SP is decremented once, the register source is read after that, and the store to the cell at the new SP
changes no register, so what was stored is what the source reads after the push. -/
theorem pushDecrementsThenStores : Obligations.PushDecrementsThenStores := by
  refine fun s src hwf => ⟨_, push_eq src s, stackAddress_decSp s, ?cell, regsKeptBut_pushed s _ _,
    memoryKeptBut_pushed s _ _, rfl, rfl, rfl, rfl, ⟨rfl, rfl, rfl, rfl⟩⟩
  case cell =>
    refine (read_pushed (src.value (decSp s)) hwf).trans ?_
    cases src with
    | reg r => exact (State.readReg_writeCell _ _ _ r).symm
    | val v => rfl

/-! ### The pop primitive (R100) -/

theorem incSp_readReg_of_ne (s : State) {i : Fin 8} (h : i ≠ 7) : (incSp s).readReg i = s.readReg i := by
  rw [incSp_readReg, if_neg h]

/-- SP after the increment, modulo 256 (R19). -/
theorem incSp_sp_toNat (s : State) : (incSp s).sp.toNat = (s.sp.toNat + 1) % 256 := by rw [incSp_sp, toNat_add_one]

/-- SP after a write to a register: the value written, if that register is SP (R18). -/
theorem State.sp_writeReg (s : State) (i : Fin 8) (v : Byte) : (s.writeReg i v).sp = if i = 7 then v else s.sp :=
  State.readReg_writeReg s i 7 v

/-- SP after a pop to a register: the increment comes last, so a pop to register 7 leaves the popped value
plus 1 (R105). -/
theorem sp_popped_reg (s : State) (r : Fin 8) (v : Byte) :
    (incSp (s.writeReg r v)).sp.toNat = ((if r = 7 then v else s.sp).toNat + 1) % 256 := by
  rw [incSp_sp_toNat, State.sp_writeReg]

/-- A pop to a register changes that register and SP and no other. -/
theorem regsKeptBut_popped_reg (s : State) (r : Fin 8) (v : Byte) : RegsKeptBut [r, 7] s (incSp (s.writeReg r v)) := by
  intro i hi
  simp only [List.mem_cons, List.not_mem_nil, or_false, not_or] at hi
  obtain ⟨hr, hsp⟩ := hi
  rw [incSp_readReg_of_ne _ hsp, State.readReg_writeReg_of_ne s hr]

/-- A pop to `pc` changes SP and no other register. -/
theorem regsKeptBut_popped_pc (s : State) (v : Byte) : RegsKeptBut [7] s (incSp (s.jumpTo v)) := fun _ hne =>
  incSp_readReg_of_ne (s.jumpTo v) (List.ne_of_not_mem_cons hne)

/-- Whatever its destination, a pop keeps memory, FL, `out` and the status registers. -/
theorem popped_frame (dst : PopDest) (s : State) (v : Byte) :
    MemoryKept s (incSp (dst.put v s)) ∧ (incSp (dst.put v s)).fl = s.fl ∧ (incSp (dst.put v s)).out = s.out ∧
      StatusKept s (incSp (dst.put v s)) := by
  cases dst <;> exact ⟨fun _ => rfl, rfl, rfl, rfl, rfl, rfl, rfl⟩

/-- Settles O14, by the destination: a register 0..6, register 7 whose popped value is incremented in turn, or `pc`. -/
theorem popReadsThenIncrements : Obligations.PopReadsThenIncrements := by
  refine fun s dst => ⟨_, pop_eq dst s, ?dest, popped_frame dst s _⟩
  case dest =>
    cases dst with
    | reg r =>
      refine ⟨?_, regsKeptBut_popped_reg s r _, rfl⟩
      have hsp := sp_popped_reg s r (Memory.read s.mem (stackAddress s))
      split
      case isTrue h7 => rwa [if_pos h7] at hsp
      case isFalse h7 =>
        rw [if_neg h7] at hsp
        exact ⟨(incSp_readReg_of_ne _ h7).trans (State.readReg_writeReg_self s r _), hsp⟩
    | pc => exact ⟨jumpTo_pc_toNat s _, incSp_sp_toNat (s.jumpTo _), regsKeptBut_popped_pc s _⟩

end Sys2Proof.Machine

/-! PROOFS. The control transfer instructions RET and JMP (43_control_transfer.md R108, R109). -/

namespace Sys2Proof.Machine

/-- Settles O20: RET is the pop primitive with the destination `pc`, so it has that pop's target, SP and frame. -/
theorem retPopsProgramCounter : Obligations.RetPopsProgramCounter := fun s =>
  ⟨rfl, _, exec_ret, jumpTo_pc_toNat s _, incSp_sp_toNat (s.jumpTo _), regsKeptBut_popped_pc s _,
    popped_frame .pc s _⟩

/-- Writing `pc` keeps everything else. -/
theorem State.setPc_frame (s : State) (p : Addr9) :
    RegsKeptBut [] s (s.setPc p) ∧ MemoryKept s (s.setPc p) ∧ (s.setPc p).fl = s.fl ∧ (s.setPc p).out = s.out ∧
      StatusKept s (s.setPc p) :=
  ⟨fun _ _ => rfl, fun _ => rfl, rfl, rfl, ⟨rfl, rfl, rfl, rfl⟩⟩

/-- Settles O21, from the state an executed JMP leaves, its frame, and the faults of its format. -/
theorem jmpLoadsProgramCounter : Obligations.JmpLoadsProgramCounter := fun s _ =>
  ⟨rfl, fun _ hi => ⟨_, exec_jmp hi, jumpTo_pc_toNat s _, State.setPc_frame s _⟩,
    registerFaults_of_one_operand rfl exec_jmp_bad⟩

end Sys2Proof.Machine

/-! PROOFS. The output stream grows by an executed PRN alone (10_state.md R32, 42_control_data_stack.md R98,
70_reset_and_hazards.md R148). -/

namespace Sys2Proof.Machine

variable {s t : State}

@[simp] theorem State.updatePc_out (s : State) (op : Byte) : (s.updatePc op).out = s.out := by
  rw [State.updatePc_eq, State.setPc_out]

/-- What a step of a Running core does to `out`, by whether it executes PRN: it appends the register that the operand byte
names (R98), or it leaves `out` as it is (R32). -/
theorem StepCase.out_cases (h : StepCase s t) (hr : s.status = .running) :
    ((OpcodeAtPc opcPrn s ∧ t.status ≠ .faulted) ∧
      ∃ i, Selects (Memory.read s.mem (s.pc.toNat + 1)) i ∧ t.out = s.out ++ [s.readReg i]) ∨
    (¬ (OpcodeAtPc opcPrn s ∧ t.status ≠ .faulted) ∧ t.out = s.out) := by
  cases h with
  | prn i hpc hop hi => exact .inl ⟨⟨⟨hr, by omega, hop⟩, by simp [hr]⟩, i, hi, rfl⟩
  | fault => exact .inr ⟨fun ⟨_, hnf⟩ => hnf rfl, rfl⟩
  | unknown op _ hop _ ht =>
    refine .inr ⟨fun ⟨⟨_, _, hprn⟩, _⟩ => ht ?_, State.updatePc_out _ op⟩
    rw [hop.symm.trans hprn]
    decide
  | add _ _ _ hop | mul _ _ _ hop | cmp _ _ _ hop | ldi _ _ hop | push _ _ hop | pop _ _ hop | hlt _ hop
  | call _ _ hop | ret _ hop | jmp _ _ hop =>
    exact .inr ⟨fun ⟨⟨_, _, hprn⟩, _⟩ => absurd (hop.symm.trans hprn) (by decide), rfl⟩

/-- Settles O36, from what each way a step can go does to `out` (`StepCase.out_cases`); a stopped engine holds its state. -/
theorem outputGrowsOnlyByPrn : Obligations.OutputGrowsOnlyByPrn := by
  intro s t h
  rcases step_inv h with ⟨hstop, rfl⟩ | ⟨hr, hc⟩
  · exact ⟨fun ⟨⟨hr, _⟩, _⟩ => absurd hr hstop, fun _ => rfl⟩
  · rcases hc.out_cases hr with ⟨hprn, hout⟩ | ⟨hprn, hout⟩
    · exact ⟨fun _ => hout, fun hn => absurd hprn hn⟩
    · exact ⟨fun hp => absurd hp hprn, fun _ => hout⟩

end Sys2Proof.Machine

/-! PROOFS. The decoder and the encoder agree (30_encoding.md R58, R61), and the census of the opcode bytes (R66 to
R68). -/

namespace Sys2Proof

variable {op : Byte} {bs rest : List Byte} {i : Instr}

/-! ### From an instruction to its bytes -/

/-- Settles O1, from what the decoder makes of each opcode byte of the table. -/
theorem opcodeBytesDecode : Obligations.OpcodeBytesDecode :=
  ⟨decode_add _ _ _, decode_mul _ _ _, decode_cmp _ _ _, decode_ldi _ _ _, decode_prn _ _, decode_push _ _,
    decode_pop _ _, decode_hlt _, decode_call _ _, decode_ret _, decode_jmp _ _⟩

theorem decode_encode_append (i : Instr) (rest : List Byte) : decode (encode i ++ rest) = .instr i rest := by
  cases i with
  | add a b => exact decode_add a b rest
  | mul a b => exact decode_mul a b rest
  | cmp a b => exact decode_cmp a b rest
  | ldi r imm => exact decode_ldi r imm rest
  | prn r => exact decode_prn r rest
  | push r => exact decode_push r rest
  | pop r => exact decode_pop r rest
  | hlt => exact decode_hlt rest
  | call r => exact decode_call r rest
  | ret => exact decode_ret rest
  | jmp r => exact decode_jmp r rest

/-! ### From bytes to an instruction -/

theorem exists_of_decodeR_eq_instr {mk : Byte → Instr} (h : decodeR mk bs = .instr i rest) :
    ∃ r, bs = r :: rest ∧ i = mk r := by
  cases bs with
  | nil => cases h
  | cons r tail =>
    cases h
    exact ⟨r, rfl, rfl⟩

theorem exists_of_decodeTwo_eq_instr {mk : Byte → Byte → List Byte → DecodeResult}
    (h : decodeTwo mk bs = .instr i rest) : ∃ a b tail, bs = a :: b :: tail ∧ mk a b tail = .instr i rest := by
  match bs, h with
  | a :: b :: tail, h => exact ⟨a, b, tail, rfl, h⟩

theorem cons_eq_encode_append_of_decodeAlu (h : decodeAlu op bs = .instr i rest) : op :: bs = encode i ++ rest := by
  obtain ⟨a, b, tail, rfl, hmk⟩ := exists_of_decodeTwo_eq_instr h
  split_ifs at hmk with hadd hmul hcmp
  · cases hmk; rw [hadd]; rfl
  · cases hmk; rw [hmul]; rfl
  · cases hmk; rw [hcmp]; rfl

/-- A format R opcode and its operand byte are the encoding of the instruction (R58). -/
theorem cons_eq_encode_append_of_decodeR {mk : Byte → Instr} (hmk : ∀ r, encode (mk r) = [op, r])
    (h : decodeR mk bs = .instr i rest) : op :: bs = encode i ++ rest := by
  obtain ⟨r, rfl, rfl⟩ := exists_of_decodeR_eq_instr h
  rw [hmk]
  rfl

theorem cons_eq_encode_append_of_decodeControl (h : decodeControl op bs = .instr i rest) :
    op :: bs = encode i ++ rest := by
  unfold decodeControl at h
  split_ifs at h with hldi hprn hpush hpop hhlt hcall hret hjmp
  · obtain ⟨r, imm, tail, rfl, hmk⟩ := exists_of_decodeTwo_eq_instr h
    cases hmk; rw [hldi]; rfl
  · exact cons_eq_encode_append_of_decodeR (hprn ▸ fun _ => rfl) h
  · exact cons_eq_encode_append_of_decodeR (hpush ▸ fun _ => rfl) h
  · exact cons_eq_encode_append_of_decodeR (hpop ▸ fun _ => rfl) h
  · cases h; rw [hhlt]; rfl
  · exact cons_eq_encode_append_of_decodeR (hcall ▸ fun _ => rfl) h
  · cases h; rw [hret]; rfl
  · exact cons_eq_encode_append_of_decodeR (hjmp ▸ fun _ => rfl) h

/-- Only the encoding of an instruction decodes to it (R68): the route by bit 5, and in each route the table it compares
the whole byte with. -/
theorem eq_encode_append_of_decode (h : decode bs = .instr i rest) : bs = encode i ++ rest := by
  cases bs with
  | nil => cases h
  | cons op tail =>
    simp only [decode] at h
    split at h
    case isTrue => exact cons_eq_encode_append_of_decodeAlu h
    case isFalse => exact cons_eq_encode_append_of_decodeControl h

/-- Settles O2, from `decode_encode_append` and `eq_encode_append_of_decode`. -/
theorem decodeIffEncoded : Obligations.DecodeIffEncoded := fun _ rest i =>
  ⟨eq_encode_append_of_decode, fun h => h ▸ decode_encode_append i rest⟩

/-! ### The census of the 256 opcode bytes -/

/-- The decoder's control table is the list of R61 in the order of the step's pseudocode (R73, R78). -/
theorem mem_controlTable_iff : op ∈ controlTable ↔ op ∈ controlBytes :=
  List.Perm.mem_iff (by decide)

theorem not_mem_aluBytes_of_bit5 (h : op.getLsbD 5 = false) : op ∉ aluBytes := fun hm =>
  absurd ((by decide : ∀ op ∈ aluBytes, op.getLsbD 5 = true) op hm) (by rw [h]; decide)

theorem not_mem_controlBytes_of_bit5 (h : op.getLsbD 5 = true) : op ∉ controlBytes := fun hm =>
  absurd ((by decide : ∀ op ∈ controlBytes, op.getLsbD 5 = false) op hm) (by rw [h]; decide)

theorem exists_decode_of_mem_table (a b : Byte) (rest : List Byte) (h : op ∈ aluBytes ++ controlBytes) :
    ∃ i tail, decode (op :: a :: b :: rest) = .instr i tail := by
  simp only [aluBytes, controlBytes, List.cons_append, List.nil_append, List.mem_cons, List.not_mem_nil, or_false] at h
  rcases h with rfl | rfl | rfl | rfl | rfl | rfl | rfl | rfl | rfl | rfl | rfl <;> exact ⟨_, _, rfl⟩

/-- Every opcode byte is in the table of R61, or an unsupported ALU opcode, or an unknown control opcode. -/
theorem opcode_cases (op : Byte) : op ∈ aluBytes ++ controlBytes ∨ (op.getLsbD 5 = true ∧ op ∉ aluBytes) ∨
    (op.getLsbD 5 = false ∧ op ∉ controlBytes) := by
  rw [List.mem_append]
  cases op.getLsbD 5 <;> tauto

/-- Settles O3: each of the three kinds of opcode byte has its outcome; bit 5 and the two lists keep them apart. -/
theorem everyOpcodeHasItsOutcome : Obligations.EveryOpcodeHasItsOutcome := by
  intro op a b rest
  rcases opcode_cases op with htable | ⟨hbit, halu⟩ | ⟨hbit, hcontrol⟩
  · obtain ⟨i, tail, hd⟩ := exists_decode_of_mem_table a b rest htable
    have hlists := List.mem_append.mp htable
    refine ⟨iff_of_true ⟨i, tail, hd⟩ htable, iff_of_false (by simp [hd]) ?_, iff_of_false (by simp [hd]) ?_⟩
    · exact fun ⟨hset, hnot⟩ => not_mem_controlBytes_of_bit5 hset (hlists.resolve_left hnot)
    · exact fun ⟨hclear, hnot⟩ => not_mem_aluBytes_of_bit5 hclear (hlists.resolve_right hnot)
  · have hd := decode_unsupported a b rest ((aluFlag_eq op).trans hbit) halu
    exact ⟨iff_of_false (by simp [hd]) (by simp [halu, not_mem_controlBytes_of_bit5 hbit]),
      iff_of_true hd ⟨hbit, halu⟩,
      iff_of_false (by simp [hd]) fun ⟨hclear, _⟩ => absurd (hbit.symm.trans hclear) (by decide)⟩
  · have hd := decode_unknown (a :: b :: rest) ((aluFlag_eq op).trans hbit) (mt mem_controlTable_iff.mp hcontrol)
    exact ⟨iff_of_false (by simp [hd]) (by simp [hcontrol, not_mem_aluBytes_of_bit5 hbit]),
      iff_of_false (by simp [hd]) fun ⟨hset, _⟩ => absurd (hbit.symm.trans hset) (by decide),
      iff_of_true hd ⟨hbit, hcontrol⟩⟩

end Sys2Proof

/-! PROOFS. No step reads FL, `halt_cause`, `fault_cause`, `fault_info` or `out` (00_scope.md R7; 10_state.md R24, R28 to
R30, R32). -/

namespace Sys2Proof.Machine

variable {s r t u : State} {m : State → Host.Outcome State Fault Refusal}

/-- `s` with the records of `r`: FL, the causes, `fault_info` and `out`. -/
def State.withRecords (s r : State) : State :=
  { s with fl := r.fl, haltCause := r.haltCause, faultCause := r.faultCause, faultInfo := r.faultInfo, out := r.out }

/-- States that agree on all that a step reads differ in the records alone. -/
theorem State.eq_withRecords_of_sameInputs (h : SameInputs s u) : u = s.withRecords u := by
  obtain ⟨hx, hpc, hstatus, hmem⟩ := h
  simp only [State.withRecords, ← hx, ← hpc, ← hstatus, ← hmem]

/-- `m` answers from `s` and from `s` with the records of `r`, the two next states agree on all that a step reads, and
both got the same values appended to `out`. -/
def RecordsUnread (m : State → Host.Outcome State Fault Refusal) (s r : State) : Prop :=
  ∃ t u vs, m s = .next t ∧ m (s.withRecords r) = .next u ∧ SameInputs t u ∧
    t.out = s.out ++ vs ∧ u.out = r.out ++ vs

/-- The case of an answer that appends nothing to `out`. -/
theorem recordsUnread_of_silent (ht : m s = .next t) (hu : m (s.withRecords r) = .next u) (h : SameInputs t u)
    (hts : t.out = s.out) (hur : u.out = r.out) : RecordsUnread m s r :=
  ⟨t, u, [], ht, hu, h, by rw [hts, List.append_nil], by rw [hur, List.append_nil]⟩

theorem recordsUnread_of_raise {f : Fault} (h : ∀ v, v.pc = s.pc → m v = .next (v.raise f)) : RecordsUnread m s r :=
  recordsUnread_of_silent (h s rfl) (h (s.withRecords r) rfl) ⟨rfl, rfl, rfl, rfl⟩ rfl rfl

/-! ### The fetch -/

theorem readOperands_withRecords (n addr : Nat) : readOperands n addr (s.withRecords r) = readOperands n addr s := by
  induction n generalizing addr with
  | zero => rfl
  | succ n ih =>
    have hmem : memRead addr (s.withRecords r) = memRead addr s := rfl
    simp only [readOperands, ih, hmem]

theorem fetch_withRecords : fetch (s.withRecords r) = fetch s := by
  have hpc : (s.withRecords r).pc = s.pc := rfl
  have hmem : memRead s.pc.toNat (s.withRecords r) = memRead s.pc.toNat s := rfl
  simp only [fetch, readOperands_withRecords, hpc, hmem]

/-! ### The instructions -/

/-- A one-register instruction reads no record if it reads none where its operand is good. -/
theorem recordsUnread_reg {i : Instr} {a : Byte} (hgood : ∀ k, Selects a k → RecordsUnread (exec i) s r)
    (hbad : NoRegister a → ∀ v, exec i v = .next (v.raise (.registerIndexFault a))) : RecordsUnread (exec i) s r := by
  rcases selects_or_noRegister a with ⟨k, hk⟩ | ha
  · exact hgood k hk
  · exact recordsUnread_of_raise fun v _ => hbad ha v

/-- A register-pair instruction reads no record if it reads none where both operands are good. -/
theorem recordsUnread_pair {mk : Byte → Byte → Instr} {a b : Byte}
    (hgood : ∀ i j, Selects a i → Selects b j → RecordsUnread (exec (mk a b)) s r)
    (hbada : NoRegister a → ∀ v, exec (mk a b) v = .next (v.raise (.registerIndexFault a)))
    (hbadb : ∀ i, Selects a i → NoRegister b → ∀ v, exec (mk a b) v = .next (v.raise (.registerIndexFault b))) :
    RecordsUnread (exec (mk a b)) s r :=
  recordsUnread_reg (fun i hi => recordsUnread_reg (fun j hj => hgood i j hi hj) (hbadb i hi)) hbada

theorem exec_recordsUnread_call (a : Byte) : RecordsUnread (exec (.call a)) s r := by
  refine recordsUnread_reg (fun k hk => ?_) fun h _ => exec_call_bad h
  by_cases hpc : s.pc.toNat ≤ 253
  · exact recordsUnread_of_silent (exec_call hk hpc) (exec_call (s := s.withRecords r) hk hpc) ⟨rfl, rfl, rfl, rfl⟩
      rfl rfl
  · exact recordsUnread_of_raise fun v hv => hv ▸ exec_call_at_top hk (by rw [hv]; omega)

/-- No instruction reads a record; only PRN appends to `out`, and what it appends is a register (R98). -/
theorem exec_recordsUnread (i : Instr) : RecordsUnread (exec i) s r := by
  cases i with
  | add a b =>
    exact recordsUnread_pair
      (fun _ _ hi hj => recordsUnread_of_silent (exec_add hi hj) (exec_add hi hj) ⟨rfl, rfl, rfl, rfl⟩ rfl rfl)
      (fun h _ => exec_add_bad_a h) fun _ hi h _ => exec_add_bad_b hi h
  | mul a b =>
    exact recordsUnread_pair
      (fun _ _ hi hj => recordsUnread_of_silent (exec_mul hi hj) (exec_mul hi hj) ⟨rfl, rfl, rfl, rfl⟩ rfl rfl)
      (fun h _ => exec_mul_bad_a h) fun _ hi h _ => exec_mul_bad_b hi h
  | cmp a b =>
    exact recordsUnread_pair
      (fun _ _ hi hj => recordsUnread_of_silent (exec_cmp hi hj) (exec_cmp hi hj) ⟨rfl, rfl, rfl, rfl⟩ rfl rfl)
      (fun h _ => exec_cmp_bad_a h) fun _ hi h _ => exec_cmp_bad_b hi h
  | ldi a imm =>
    exact recordsUnread_reg
      (fun _ hk => recordsUnread_of_silent (exec_ldi hk) (exec_ldi hk) ⟨rfl, rfl, rfl, rfl⟩ rfl rfl)
      fun h _ => exec_ldi_bad h
  | prn a =>
    exact recordsUnread_reg
      (fun k hk => ⟨_, _, [s.readReg k], exec_prn hk, exec_prn hk, ⟨rfl, rfl, rfl, rfl⟩, rfl, rfl⟩)
      fun h _ => exec_prn_bad h
  | push a =>
    exact recordsUnread_reg
      (fun _ hk => recordsUnread_of_silent (exec_push hk) (exec_push hk) ⟨rfl, rfl, rfl, rfl⟩ rfl rfl)
      fun h _ => exec_push_bad h
  | pop a =>
    exact recordsUnread_reg
      (fun _ hk => recordsUnread_of_silent (exec_pop hk) (exec_pop hk) ⟨rfl, rfl, rfl, rfl⟩ rfl rfl)
      fun h _ => exec_pop_bad h
  | hlt => exact recordsUnread_of_silent exec_hlt exec_hlt ⟨rfl, rfl, rfl, rfl⟩ rfl rfl
  | call a => exact exec_recordsUnread_call a
  | ret => exact recordsUnread_of_silent exec_ret exec_ret ⟨rfl, rfl, rfl, rfl⟩ rfl rfl
  | jmp a =>
    exact recordsUnread_reg
      (fun _ hk => recordsUnread_of_silent (exec_jmp hk) (exec_jmp hk) ⟨rfl, rfl, rfl, rfl⟩ rfl rfl)
      fun h _ => exec_jmp_bad h

/-! ### The step -/

theorem haltUnknown_recordsUnread (op : Byte) : RecordsUnread (haltUnknown op) s r := by
  refine recordsUnread_of_silent rfl rfl ?_ (State.updatePc_out _ op) (State.updatePc_out _ op)
  simp only [State.updatePc_eq]
  exact ⟨rfl, rfl, rfl, rfl⟩

theorem runInstruction_recordsUnread : RecordsUnread runInstruction s r := by
  simp only [RecordsUnread, runInstruction, fetch_withRecords]
  cases fetch s with
  | error e => exact recordsUnread_of_raise (m := fun v => .next (v.raise e)) fun _ _ => rfl
  | ok bytes =>
    cases hd : decode bytes with
    | instr i _ => simp only [hd]; exact exec_recordsUnread i
    | unknownControl op => simp only [hd]; exact haltUnknown_recordsUnread op
    | unsupportedAlu op =>
      simp only [hd]
      exact recordsUnread_of_raise (m := fun v => .next (v.raise (.unsupportedAluOp op))) fun _ _ => rfl
    | truncated k =>
      simp only [hd]
      exact recordsUnread_of_raise (m := fun v => .next (v.raise (.addressFault (v.pc.toNat + k))))
        (f := .addressFault (s.pc.toNat + k)) fun v hpc => by rw [hpc]

theorem step_recordsUnread : RecordsUnread step s r := by
  by_cases hr : s.status = .running
  · obtain ⟨t, u, vs, ht, hu, h⟩ := runInstruction_recordsUnread (s := s) (r := r)
    exact ⟨t, u, vs, (step_of_running hr).trans ht, (step_of_running (s := s.withRecords r) hr).trans hu, h⟩
  · exact recordsUnread_of_silent (step_of_stopped hr) (step_of_stopped (s := s.withRecords r) hr)
      ⟨rfl, rfl, rfl, rfl⟩ rfl rfl

/-- Settles O35: two states that agree on all that a step reads differ in the records alone, and no step reads those. -/
theorem recordsNeverInfluenceExecution : Obligations.RecordsNeverInfluenceExecution := by
  intro s u h
  obtain ⟨s', u', vs, hs, hu, hnext⟩ := step_recordsUnread (s := s) (r := u)
  exact ⟨s', u', vs, hs, State.eq_withRecords_of_sameInputs h ▸ hu, hnext⟩

end Sys2Proof.Machine

/-! PROOFS. What every step leaves unchanged in memory and in the register file (10_state.md R16; 20_memory.md R36, R41;
40_step_cycle.md R86), and that every state has a next state. -/

namespace Sys2Proof.Machine

variable {s t : State} {i : Fin 8}

/-- Settles O28: a Running core goes one of the ways of `StepCase`, a stopped one holds its state. -/
theorem everyStepAnswersNext : Obligations.EveryStepAnswersNext := by
  intro s
  by_cases hr : s.status = .running
  · obtain ⟨t, ht, _⟩ := step_cases hr
    exact ⟨t, ht⟩
  · exact ⟨s, step_of_stopped hr⟩

/-! ### The loop's update writes `pc` alone (R79) -/

@[simp] theorem State.updatePc_x (s : State) (op : Byte) : (s.updatePc op).x = s.x := by
  rw [State.updatePc_eq, State.setPc_x]

@[simp] theorem State.updatePc_fl (s : State) (op : Byte) : (s.updatePc op).fl = s.fl := by
  rw [State.updatePc_eq, State.setPc_fl]

@[simp] theorem State.updatePc_status (s : State) (op : Byte) : (s.updatePc op).status = s.status := by
  rw [State.updatePc_eq, State.setPc_status]

@[simp] theorem State.updatePc_haltCause (s : State) (op : Byte) : (s.updatePc op).haltCause = s.haltCause := by
  rw [State.updatePc_eq, State.setPc_haltCause]

@[simp] theorem State.updatePc_faultCause (s : State) (op : Byte) : (s.updatePc op).faultCause = s.faultCause := by
  rw [State.updatePc_eq, State.setPc_faultCause]

@[simp] theorem State.updatePc_faultInfo (s : State) (op : Byte) : (s.updatePc op).faultInfo = s.faultInfo := by
  rw [State.updatePc_eq, State.setPc_faultInfo]

@[simp] theorem State.updatePc_mem (s : State) (op : Byte) : (s.updatePc op).mem = s.mem := by
  rw [State.updatePc_eq, State.setPc_mem]

@[simp] theorem State.readReg_updatePc (s : State) (op : Byte) (j : Fin 8) :
    (s.updatePc op).readReg j = s.readReg j := by
  rw [State.updatePc_eq, State.readReg_setPc]

/-! ### Memory -/

theorem memoryKept_of_mem_eq (h : t.mem = s.mem) : MemoryKept s t := fun _ => by rw [h]

/-- A step keeps the memory, or it is a PUSH or a CALL and writes the one cell below SP (R36, R41). -/
theorem StepCase.mem_cases (h : StepCase s t) :
    t.mem = s.mem ∨
    (s.pc.toNat ≤ 255 ∧ Memory.read s.mem s.pc.toNat ∈ [opcPush, opcCall] ∧
      ∃ v, t.mem = Memory.write s.mem (stackAddress (decSp s)) v) := by
  cases h with
  | push _ hpc hop | call _ hpc hop => exact .inr ⟨by omega, by simp [hop], _, rfl⟩
  | unknown op => exact .inl (State.updatePc_mem _ op)
  | fault | add | mul | cmp | ldi | prn | pop | hlt | ret | jmp => exact .inl rfl

theorem step_mem_cases (h : step s = .next t) :
    t.mem = s.mem ∨
    ((OpcodeAtPc opcPush s ∨ OpcodeAtPc opcCall s) ∧ ∃ v, t.mem = Memory.write s.mem (stackAddress (decSp s)) v) := by
  rcases step_inv h with ⟨_, rfl⟩ | ⟨hr, hc⟩
  · exact .inl rfl
  · rcases hc.mem_cases with hkept | ⟨hpc, hop, hwrite⟩
    · exact .inl hkept
    · rw [List.mem_pair] at hop
      exact .inr ⟨hop.imp (⟨hr, hpc, ·⟩) (⟨hr, hpc, ·⟩), hwrite⟩

/-- Settles O37, from the one write a step can make (`step_mem_cases`). -/
theorem stepWritesAtMostOneCell : Obligations.StepWritesAtMostOneCell := by
  intro s t h
  rcases step_mem_cases h with hkept | ⟨hop, v, hwrite⟩
  · have hmem := memoryKept_of_mem_eq hkept
    exact ⟨fun a _ => hmem a, fun _ _ => hmem⟩
  · refine ⟨fun a hne => ?_, fun hpush hcall => absurd hop (not_or.mpr ⟨hpush, hcall⟩)⟩
    rw [hwrite]
    exact Memory.read_write_of_ne s.mem v hne

/-- Settles O41: the one write a step can make is at an address of memory, so it keeps the canonical form. -/
theorem stepKeepsCanonicalMemory : Obligations.StepKeepsCanonicalMemory := by
  intro s t hwf h
  rcases step_mem_cases h with hkept | ⟨_, v, hwrite⟩
  · rwa [hkept]
  · rw [hwrite]
    exact Memory.wf_write v (Nat.lt_succ_of_le (stackAddress_le _)) hwf

/-! ### Registers -/

/-- A register that differs is one of those that may change. -/
theorem mem_of_regsKeptBut {changed : List (Fin 8)} (h : RegsKeptBut changed s t) (hne : t.readReg i ≠ s.readReg i) :
    i ∈ changed :=
  by_contra fun hnot => hne (h i hnot)

/-- The registers a step of a Running core can change, by its opcode (R16, R86). -/
theorem StepCase.reg_cases (h : StepCase s t) (hne : t.readReg i ≠ s.readReg i) :
    s.pc.toNat ≤ 255 ∧
    ((Memory.read s.mem s.pc.toNat ∈ [opcAdd, opcMul, opcLdi, opcPop] ∧
        Selects (Memory.read s.mem (s.pc.toNat + 1)) i) ∨
     (Memory.read s.mem s.pc.toNat ∈ [opcPush, opcPop, opcCall, opcRet] ∧ i = 7)) := by
  cases h with
  | add k _ hpc hop hk | mul k _ hpc hop hk | ldi k hpc hop hk =>
    obtain ⟨hkept, _⟩ := State.setPc_writeReg_frame s k _ _
    obtain rfl : i = k := List.mem_singleton.mp (mem_of_regsKeptBut hkept hne)
    exact ⟨by omega, .inl ⟨by simp [hop], hk⟩⟩
  | pop k hpc hop hk =>
    rcases List.mem_pair.mp (mem_of_regsKeptBut (regsKeptBut_popped_reg s k _) hne) with rfl | rfl
    · exact ⟨by omega, .inl ⟨by simp [hop], hk⟩⟩
    · exact ⟨by omega, .inr ⟨by simp [hop], rfl⟩⟩
  | push _ hpc hop | call _ hpc hop =>
    have h7 : i = 7 := by_contra fun hi => hne (decSp_readReg_of_ne s hi)
    exact ⟨by omega, .inr ⟨by simp [hop], h7⟩⟩
  | ret hpc hop =>
    have h7 : i = 7 := by_contra fun hi => hne (incSp_readReg_of_ne (s.jumpTo _) hi)
    exact ⟨hpc, .inr ⟨by simp [hop], h7⟩⟩
  | unknown op => exact absurd (State.readReg_updatePc _ op i) hne
  | fault | cmp | prn | hlt | jmp => exact absurd rfl hne

/-- Settles O38, from the registers each way a step can go changes (`StepCase.reg_cases`). -/
theorem stepChangesOnlyNamedRegisters : Obligations.StepChangesOnlyNamedRegisters := by
  intro s t i h hne
  rcases step_inv h with ⟨_, rfl⟩ | ⟨hr, hc⟩
  · exact absurd rfl hne
  · exact ⟨hr, hc.reg_cases hne⟩

end Sys2Proof.Machine

/-! PROOFS. The transitions of `status` and the causes they record (40_step_cycle.md R82, R83; 60_exceptions.md R119 to
R122, R127). -/

namespace Sys2Proof.Machine

variable {s t : State} {op : Byte}

/-! ### The opcodes that halt the core (R66, R103) -/

/-- The byte at `pc` is the opcode of HLT or an unknown control opcode. -/
def HaltsAt (s : State) : Prop :=
  s.pc.toNat ≤ 255 ∧
  (Memory.read s.mem s.pc.toNat = opcHlt ∨
    ((Memory.read s.mem s.pc.toNat).getLsbD 5 = false ∧ Memory.read s.mem s.pc.toNat ∉ controlBytes))

theorem step_hlt (hop : OpcodeAtPc opcHlt s) : step s = .next ((s.halt .hltInstruction).setPc (s.pc + 1)) := by
  obtain ⟨hr, hpc, hread⟩ := hop
  rw [step_of_fetch hr (fetch_none hpc hread rfl) (decode_hlt _), exec_hlt]

theorem step_unknownControl (hop : OpcodeAtPc op s) (hbit : op.getLsbD 5 = false) (hnot : op ∉ controlBytes) :
    step s = .next ((s.halt .unknownOpcode).updatePc op) := by
  obtain ⟨hr, hpc, hread⟩ := hop
  exact step_unknown hr hpc hread ((aluFlag_eq op).trans hbit) (mt mem_controlTable_iff.mp hnot)

/-- A halting opcode always halts: no fault comes before it. -/
theorem step_halts (hr : s.status = .running) (h : HaltsAt s) : ∃ t, step s = .next t ∧ t.status = .halted := by
  obtain ⟨hpc, hop | ⟨hbit, hnot⟩⟩ := h
  · exact ⟨_, step_hlt ⟨hr, hpc, hop⟩, rfl⟩
  · exact ⟨_, step_unknownControl ⟨hr, hpc, rfl⟩ hbit hnot, State.updatePc_status _ _⟩

/-- `pc` after the loop's update, from an address of memory (R79 to R81). -/
theorem State.updatePc_pc_toNat (op : Byte) (hpc : s.pc.toNat ≤ 255) :
    (s.updatePc op).pc.toNat = if op.getLsbD 4 then s.pc.toNat else s.pc.toNat + op.toNat / 64 + 1 := by
  split
  case isTrue hbit => rw [State.updatePc_pc_of_bit4_set hbit]
  case isFalse hbit =>
    rw [State.updatePc_pc_toNat_of_bit4_clear (Bool.eq_false_of_not_eq_true hbit) hpc, instrLen_eq, Nat.add_assoc]

/-- Settles O17, from the state an executed HLT leaves. -/
theorem hltStopsTheCore : Obligations.HltStopsTheCore := fun _ =>
  ⟨rfl, _, exec_hlt, ⟨rfl, rfl⟩, fun _ _ => rfl, fun _ => rfl, rfl, rfl, ⟨rfl, rfl⟩, rfl⟩

/-- Settles O24, from the state an unknown control opcode leaves; the census is counted over the 256 byte values. -/
theorem unknownControlOpcodeHalts : Obligations.UnknownControlOpcodeHalts := by
  refine ⟨fun s op hop hbit hnot => ⟨_, step_unknownControl hop hbit hnot, ?_⟩, by decide +kernel⟩
  obtain ⟨_, hpc, _⟩ := hop
  exact ⟨by simp, by simp, fun _ _ => by simp, fun _ => by simp, by simp, by simp, ⟨by simp, by simp⟩,
    State.updatePc_pc_toNat (s := s.halt .unknownOpcode) op hpc⟩

/-! ### The three kinds of step a Running core makes (R82) -/

/-- A step of a Running core takes a fault, or halts with the cause of its opcode, or keeps the status registers. -/
theorem StepCase.status_cases (h : StepCase s t) :
    (∃ f, FaultPossible s f ∧ t = s.raise f) ∨
    (HaltsAt s ∧ t.status = .halted ∧ FaultRecordKept s t ∧
      t.haltCause = if Memory.read s.mem s.pc.toNat = opcHlt then .hltInstruction else .unknownOpcode) ∨
    StatusKept s t := by
  cases h with
  | fault f hf => exact .inl ⟨f, hf, rfl⟩
  | hlt hpc hop => exact .inr (.inl ⟨⟨hpc, .inl hop⟩, rfl, ⟨rfl, rfl⟩, (if_pos hop).symm⟩)
  | unknown op hpc hop ha ht =>
    subst hop
    have hnot := mt mem_controlTable_iff.mpr ht
    have hne : Memory.read s.mem s.pc.toNat ≠ opcHlt := fun hop => hnot (hop ▸ by decide)
    exact .inr (.inl ⟨⟨hpc, .inr ⟨(aluFlag_eq _).symm.trans ha, hnot⟩⟩, by simp, ⟨by simp, by simp⟩, by simp [hne]⟩)
  | add | mul | cmp | ldi | prn | push | pop | call | ret | jmp => exact .inr (.inr ⟨rfl, rfl, rfl, rfl⟩)

theorem halted_iff_haltsAt (hr : s.status = .running) (h : step s = .next t) (hc : StepCase s t) :
    t.status = .halted ↔ HaltsAt s := by
  constructor
  · intro hhalted
    rcases hc.status_cases with ⟨f, _, rfl⟩ | ⟨hat, _⟩ | ⟨hstatus, _⟩
    · cases hhalted
    · exact hat
    · rw [hstatus, hr] at hhalted
      cases hhalted
  · intro hat
    obtain ⟨u, hu, hhalted⟩ := step_halts hr hat
    rw [h] at hu
    cases hu
    exact hhalted

/-- Settles O30, from the three kinds of step of a Running core (`StepCase.status_cases`) and `halted_iff_haltsAt`. -/
theorem statusTransitions : Obligations.StatusTransitions := by
  intro s t h
  rcases step_inv h with ⟨hstop, rfl⟩ | ⟨hr, hc⟩
  · exact ⟨fun _ => rfl, fun hr => absurd hr hstop⟩
  refine ⟨fun hstop => absurd hr hstop, fun _ => ⟨halted_iff_haltsAt hr h hc, ?_⟩⟩
  have hraised : (∃ f, Raised f s t) → t.status = .faulted := fun ⟨_, hstatus, _⟩ => hstatus
  rcases hc.status_cases with ⟨f, _, rfl⟩ | ⟨_, hstatus, _, hcause⟩ | ⟨hstatus, hcauses⟩
  · exact ⟨nofun, iff_of_true rfl ⟨f, raised_raise f s⟩, nofun⟩
  · have hnf : t.status ≠ .faulted := by simp [hstatus]
    exact ⟨fun _ => hcause, iff_of_false hnf (mt hraised hnf), by simp [hstatus]⟩
  · have hrun : t.status = .running := hstatus.trans hr
    have hnf : t.status ≠ .faulted := by simp [hrun]
    exact ⟨by simp [hrun], iff_of_false hnf (mt hraised hnf), fun _ => ⟨hstatus, hcauses⟩⟩

/-! ### Terminal states (R83, R127) -/

/-- An engine whose step holds its state holds it over any number of steps. -/
theorem run_of_step_self (h : step s = .next s) (n : Nat) : Sys2Proof.core.run n s = .next s := by
  induction n with
  | zero => rfl
  | succ n ih =>
    have hstep : Sys2Proof.core.step s = .next s := h
    simp only [Host.Core.run, hstep, ih]

theorem Fault.code_ne_zero (f : Fault) : f.code ≠ 0 := by cases f <;> simp [Fault.code]

/-- No step of a Running core clears a cause. -/
theorem StepCase.causes_stay (h : StepCase s t) :
    (s.faultCause ≠ 0 → t.faultCause ≠ 0) ∧ (s.haltCause ≠ .none → t.haltCause ≠ .none) := by
  rcases h.status_cases with ⟨f, _, rfl⟩ | ⟨_, _, ⟨hfault, _⟩, hcause⟩ | ⟨_, hhalt, hfault, _⟩
  · exact ⟨fun _ => f.code_ne_zero, id⟩
  · refine ⟨fun hne => hfault ▸ hne, fun _ => ?_⟩
    rw [hcause]
    split <;> decide
  · exact ⟨fun hne => hfault ▸ hne, fun hne => hhalt ▸ hne⟩

/-- Settles O31: a step of a stopped engine is the identity, reset is a constant, and no step clears a cause. -/
theorem stoppedStatesAreTerminal : Obligations.StoppedStatesAreTerminal := by
  refine ⟨fun n s hstop => run_of_step_self (step_of_stopped hstop) n, fun _ _ => rfl, fun s t h => ?_⟩
  rcases step_inv h with ⟨_, rfl⟩ | ⟨_, hc⟩
  · exact ⟨id, id⟩
  · exact hc.causes_stay

end Sys2Proof.Machine

/-! PROOFS. The invariant of every state of a run (10_state.md R20, R25, R28 to R30; 60_exceptions.md R117). -/

namespace Sys2Proof.Machine

variable {s t : State}

/-! ### The flags (R25, R90) -/

/-- From legal flags a comparison leaves exactly one of E, G and L. -/
theorem compareFlags_of_flagsLegal (h : FlagsLegal s) (u v : Byte) :
    compareFlags s.fl u v = if u.toNat = v.toNat then 1 else if v.toNat < u.toNat then 2 else 4 := by
  rcases Nat.lt_trichotomy u.toNat v.toNat with hlt | heq | hgt
  · simp only [compareFlags, hlt, hlt.ne, hlt.not_gt, beq_eq_false_iff_ne.mpr hlt.ne, decide_true, decide_false,
      if_false]
    rcases h with h | h | h | h <;> rw [h] <;> decide
  · simp only [compareFlags, heq, lt_irrefl, beq_self_eq_true, decide_false, if_true]
    rcases h with h | h | h | h <;> rw [h] <;> decide
  · simp only [compareFlags, hgt, hgt.ne', hgt.not_gt, beq_eq_false_iff_ne.mpr hgt.ne', decide_true, decide_false,
      if_false, if_true]
    rcases h with h | h | h | h <;> rw [h] <;> decide

/-- Settles O10: by which of the two registers is the greater, the flags of both orders are computed
(`compareFlags_of_flagsLegal`). -/
theorem cmpSwapExchangesLessAndGreater : Obligations.CmpSwapExchangesLessAndGreater := by
  intro s a b i j hi hj hfl
  refine ⟨_, _, exec_cmp hi hj, exec_cmp hj hi, ?_⟩
  simp only [State.setPc_fl, State.setFl_fl, compareFlags_of_flagsLegal hfl, ← BitVec.toNat_inj (x := s.readReg i)]
  rcases Nat.lt_trichotomy (s.readReg i).toNat (s.readReg j).toNat with hlt | heq | hgt
  · simp [hlt, hlt.ne, hlt.ne', hlt.not_gt]
  · simp [heq]
  · simp [hgt, hgt.ne, hgt.ne', hgt.not_gt]

theorem StepCase.flagsLegal (h : StepCase s t) (hfl : FlagsLegal s) : FlagsLegal t := by
  cases h with
  | cmp i j =>
    have hcmp := compareFlags_of_flagsLegal hfl (s.readReg i) (s.readReg j)
    refine .inr ?_
    rw [State.setPc_fl, State.setFl_fl, hcmp]
    split_ifs <;> decide
  | unknown op => rwa [FlagsLegal, State.updatePc_fl]
  | fault | add | mul | ldi | prn | push | pop | hlt | call | ret | jmp => exact hfl

/-! ### The program counter (R20) -/

theorem toNat_add_ofNat_le {p : Addr9} {n top : Nat} (h : p.toNat + n ≤ top) : (p + BitVec.ofNat 9 n).toNat ≤ top := by
  rw [BitVec.toNat_add, BitVec.toNat_ofNat]
  omega

theorem jumpTo_pc_le (s : State) (v : Byte) : (s.jumpTo v).pc.toNat ≤ 255 := by
  have hv := v.isLt
  rw [jumpTo_pc_toNat]
  omega

/-- `pc` after a step of a Running core that takes no fault: at most 259 after a halt, at most 256 otherwise. -/
theorem StepCase.pc_le (h : StepCase s t) (hnf : t.status ≠ .faulted) :
    t.pc.toNat ≤ 259 ∧ (t.status ≠ .halted → t.pc.toNat ≤ 256) := by
  have hwide : t.pc.toNat ≤ 256 → t.pc.toNat ≤ 259 ∧ (t.status ≠ .halted → t.pc.toNat ≤ 256) :=
    fun hpc => ⟨by omega, fun _ => hpc⟩
  cases h with
  | fault => exact absurd rfl hnf
  | unknown op hpc =>
    refine ⟨?_, fun hne => absurd (State.updatePc_status _ op) hne⟩
    have hop := op.isLt
    rw [State.updatePc_pc_toNat (s := s.halt .unknownOpcode) op hpc, State.halt_pc]
    split <;> omega
  | add _ _ hpc | mul _ _ hpc | cmp _ _ hpc | ldi _ hpc => exact hwide (toNat_add_ofNat_le (n := 3) (by omega))
  | prn _ hpc | push _ hpc | pop _ hpc => exact hwide (toNat_add_ofNat_le (n := 2) (by omega))
  | hlt hpc => exact hwide (toNat_add_ofNat_le (n := 1) (by omega))
  | call | jmp => exact hwide ((jumpTo_pc_le _ _).trans (by omega))
  | ret => exact hwide ((jumpTo_pc_le s _).trans (by omega))

/-! ### The status registers (R27 to R30) -/

/-- The cause of a fault and the info of its kind (R30, R117, R118, R120). -/
def FaultRecordLegal (s : State) : Prop :=
  (s.faultCause = 1 ∧ s.faultInfo = 256) ∨
  (s.faultCause = 2 ∧ 8 ≤ s.faultInfo.toNat ∧ s.faultInfo.toNat ≤ 255) ∨
  (s.faultCause = 3 ∧ ∃ op : Byte, s.faultInfo = op.setWidth 9 ∧ op.getLsbD 5 = true ∧ op ∉ aluBytes)

theorem statusCoherent_iff_of_running (h : s.status = .running) :
    StatusCoherent s ↔ s.pc.toNat ≤ 256 ∧ s.haltCause = .none ∧ s.faultCause = 0 ∧ s.faultInfo = 0 := by
  simp only [StatusCoherent, h]

theorem statusCoherent_iff_of_halted (h : s.status = .halted) :
    StatusCoherent s ↔ s.pc.toNat ≤ 259 ∧ s.haltCause ≠ .none ∧ s.faultCause = 0 ∧ s.faultInfo = 0 := by
  simp only [StatusCoherent, h]

theorem statusCoherent_iff_of_faulted (h : s.status = .faulted) :
    StatusCoherent s ↔ s.pc.toNat ≤ 256 ∧ s.haltCause = .none ∧ FaultRecordLegal s := by
  simp only [StatusCoherent, h, FaultRecordLegal]

theorem faultRecordLegal_raise {f : Fault} (hpc : s.pc.toNat ≤ 256) (hf : FaultPossible s f) :
    FaultRecordLegal (s.raise f) := by
  cases f with
  | addressFault addr =>
    obtain rfl : addr = 256 := hf.elim id fun ⟨haddr, hgt⟩ => by omega
    exact .inl ⟨rfl, rfl⟩
  | registerIndexFault i =>
    have hi := i.isLt
    have hinfo : (s.raise (.registerIndexFault i)).faultInfo.toNat = i.toNat := toNat_setWidth_nine i
    exact .inr (.inl ⟨rfl, hinfo ▸ hf, by omega⟩)
  | unsupportedAluOp op =>
    obtain ⟨ha, ht⟩ := hf
    exact .inr (.inr ⟨rfl, op, rfl, (aluFlag_eq op).symm.trans ha, ht⟩)

theorem StepCase.statusCoherent (h : StepCase s t) (hr : s.status = .running) (hs : StatusCoherent s) :
    StatusCoherent t := by
  obtain ⟨hpc, hhalt, hfault, hinfo⟩ := (statusCoherent_iff_of_running hr).mp hs
  rcases h.status_cases with ⟨f, hf, rfl⟩ | ⟨_, hhalted, ⟨hfault', hinfo'⟩, hcause⟩ | ⟨hrun, hhalt', hfault', hinfo'⟩
  · exact (statusCoherent_iff_of_faulted rfl).mpr ⟨hpc, hhalt, faultRecordLegal_raise hpc hf⟩
  · obtain ⟨hpc', _⟩ := h.pc_le (by simp [hhalted])
    refine (statusCoherent_iff_of_halted hhalted).mpr ⟨hpc', ?_, hfault'.trans hfault, hinfo'.trans hinfo⟩
    rw [hcause]
    split <;> decide
  · rw [hr] at hrun
    obtain ⟨_, hpc'⟩ := h.pc_le (by simp [hrun])
    exact (statusCoherent_iff_of_running hrun).mpr
      ⟨hpc' (by simp [hrun]), hhalt'.trans hhalt, hfault'.trans hfault, hinfo'.trans hinfo⟩

/-! ### The invariant -/

theorem coreInv_step (hs : CoreInv s) (h : step s = .next t) : CoreInv t := by
  obtain ⟨hwf, hfl, hstatus⟩ := hs
  rcases step_inv h with ⟨_, rfl⟩ | ⟨hr, hc⟩
  · exact ⟨hwf, hfl, hstatus⟩
  · exact ⟨stepKeepsCanonicalMemory s t hwf h, hc.flagsLegal hfl, hc.statusCoherent hr hstatus⟩

/-- Settles O42, from the step lemmas of its three parts: the canonical memory, the flags and the status registers. -/
theorem stepKeepsInvariant : Obligations.StepKeepsInvariant := fun _ _ => coreInv_step

/-- Settles O43: after reset the core is Running with no cause, legal flags and a `pc` below 256. -/
theorem resetMeetsInvariant : Obligations.ResetMeetsInvariant := fun startPc =>
  ⟨rfl, .inl rfl, (statusCoherent_iff_of_running rfl).mpr
    ⟨(jumpTo_pc_le (State.resetAt startPc) startPc).trans (by omega), rfl, rfl, rfl⟩⟩

theorem coreInv_loadCell (hs : CoreInv s) (cell : Byte × Byte) : CoreInv (s.loadCell cell) := by
  obtain ⟨hwf, hrest⟩ := hs
  exact ⟨Memory.wf_write cell.2 cell.1.isLt hwf, hrest⟩

theorem coreInv_loadImage (hs : CoreInv s) (image : List (Byte × Byte)) : CoreInv (s.loadImage image) := by
  induction image generalizing s with
  | nil => exact hs
  | cons cell image ih => exact ih (coreInv_loadCell hs cell)

/-- Settles O44: reset meets the invariant and the load of each cell of the image keeps it. -/
theorem launchMeetsInvariant : Obligations.LaunchMeetsInvariant := fun image startPc =>
  coreInv_loadImage (resetMeetsInvariant startPc) image

theorem coreInv_of_reachable (h : Reachable s) : CoreInv s := by
  induction h with
  | launch image startPc => exact launchMeetsInvariant image startPc
  | step _ hstep ih => exact coreInv_step ih hstep

/-- Settles O45: the bounds are read off the invariant, by `status`. -/
theorem reachableStatesAreBounded : Obligations.ReachableStatesAreBounded := by
  intro s hs
  obtain ⟨_, hfl, hstatus⟩ := coreInv_of_reachable hs
  refine ⟨hfl, ?_⟩
  cases hst : s.status with
  | running =>
    obtain ⟨hpc, hhalt, hfault, hinfo⟩ := (statusCoherent_iff_of_running hst).mp hstatus
    simp [hhalt, hfault, hinfo, hpc, show s.pc.toNat ≤ 259 by omega]
  | halted =>
    obtain ⟨hpc, hhalt, hfault, hinfo⟩ := (statusCoherent_iff_of_halted hst).mp hstatus
    simp [hhalt, hfault, hinfo, hpc]
  | faulted =>
    obtain ⟨hpc, hhalt, ⟨hfault, hinfo⟩ | ⟨hfault, hinfo⟩ | ⟨hfault, hinfo⟩⟩ :=
      (statusCoherent_iff_of_faulted hst).mp hstatus <;>
    simpa [hhalt, hfault, hpc, show s.pc.toNat ≤ 259 by omega] using hinfo

end Sys2Proof.Machine

/-! PROOFS. Memory accesses, reset and load (20_memory.md R42, R45; 10_state.md R33; 70_reset_and_hazards.md R137). -/

namespace Sys2Proof.Machine

variable {s : State}

/-- Settles O26, from what a checked access answers on each side of 255 and the laws of the memory array. -/
theorem accessIsCheckedAndReadsBack : Obligations.AccessIsCheckedAndReadsBack := by
  intro s addr v
  refine ⟨fun hgt => ⟨memRead_of_gt s hgt, memWrite_of_gt v s hgt⟩, fun hle => ⟨memRead_of_le s hle, ?_⟩⟩
  refine ⟨_, memWrite_of_le v s hle, fun _ hne => Memory.read_write_of_ne s.mem v hne, fun hwf => ?_⟩
  exact ⟨(memRead_of_le _ hle).trans (congrArg Except.ok (Memory.read_write_self addr v hwf)),
    Memory.wf_write v (Nat.lt_succ_of_le hle) hwf⟩

/-- Settles O5, field by field. -/
theorem resetStateValues : Obligations.ResetStateValues := by
  refine fun startPc => ⟨fun i => ?_, toNat_setWidth_nine startPc, rfl, rfl, rfl, rfl, rfl, fun _ => rfl, rfl, rfl⟩
  fin_cases i <;> rfl

/-! ### Load -/

theorem State.loadImage_concat (s : State) (image : List (Byte × Byte)) (cell : Byte × Byte) :
    s.loadImage (image ++ [cell]) = (s.loadImage image).loadCell cell := by
  simp only [State.loadImage, List.foldl_append, List.foldl_cons, List.foldl_nil]

/-- A loaded image leaves in a cell the last byte loaded into it, and what was there where it loads none. -/
theorem read_loadImage (hs : CoreInv s) (image : List (Byte × Byte)) (a : Byte) :
    Memory.read (s.loadImage image).mem a.toNat =
      ((image.reverse.find? fun c => c.1 == a).map Prod.snd).getD (Memory.read s.mem a.toNat) := by
  induction image using List.reverseRecOn with
  | nil => rfl
  | append_singleton image cell ih =>
    obtain ⟨hwf, _⟩ := coreInv_loadImage hs image
    rw [State.loadImage_concat, List.reverse_concat, List.find?_cons, State.loadCell, State.writeCell_mem]
    by_cases hcell : cell.1 = a
    · rw [hcell, beq_self_eq_true]
      exact Memory.read_write_self a.toNat cell.2 hwf
    · rw [beq_eq_false_iff_ne.mpr hcell, ← ih]
      exact Memory.read_write_of_ne _ cell.2 fun haddr => hcell (BitVec.eq_of_toNat_eq haddr.symm)

/-- Settles O6, from the cells a load leaves (`read_loadImage`) and what it leaves unchanged. -/
theorem launchStateHoldsImage : Obligations.LaunchStateHoldsImage := by
  refine fun image startPc => ⟨fun a => ?_, State.loadImage_x _ image, ?_, State.loadImage_fl _ image,
    ⟨State.loadImage_status _ image, State.loadImage_haltCause _ image, State.loadImage_faultCause _ image,
      State.loadImage_faultInfo _ image⟩, State.loadImage_out _ image⟩
  · rw [State.launch, read_loadImage (resetMeetsInvariant startPc)]
    cases image.reverse.find? fun c => c.1 == a <;> rfl
  · rw [State.launch, State.loadImage_pc]
    exact toNat_setWidth_nine startPc

end Sys2Proof.Machine

/-! PROOFS. A step runs the instruction whose bytes stand at `pc` (40_step_cycle.md R73, R74), placed there by the host or
by the program itself (20_memory.md R49). -/

namespace Sys2Proof.Machine

variable {s : State} {bs : List Byte} {addr : Nat}

/-! ### Fetch -/

theorem readOperands_of_bytes (hfit : addr + bs.length ≤ 256)
    (hread : ∀ k (h : k < bs.length), Memory.read s.mem (addr + k) = bs[k]) :
    readOperands bs.length addr s = .ok bs := by
  induction bs generalizing addr with
  | nil => rfl
  | cons v vs ih =>
    rw [List.length_cons] at hfit
    have hhead : Memory.read s.mem addr = v := hread 0 (by simp)
    have htail : readOperands vs.length (addr + 1) s = .ok vs := by
      refine ih (by omega) fun k hk => ?_
      rw [Nat.add_right_comm]
      exact hread (k + 1) (Nat.succ_lt_succ hk)
    simp only [List.length_cons, readOperands, memRead_of_le s (show addr ≤ 255 by omega), hhead, htail]
    rfl

theorem encodingShape (i : Instr) : Laws.EncodingShape.Statement i :=
  match i with
  | .add a b => Laws.EncodingShape.add a b
  | .mul a b => Laws.EncodingShape.mul a b
  | .cmp a b => Laws.EncodingShape.cmp a b
  | .ldi r imm => Laws.EncodingShape.ldi r imm
  | .prn r => Laws.EncodingShape.prn r
  | .push r => Laws.EncodingShape.push r
  | .pop r => Laws.EncodingShape.pop r
  | .hlt => Laws.EncodingShape.hlt
  | .call r => Laws.EncodingShape.call r
  | .ret => Laws.EncodingShape.ret
  | .jmp r => Laws.EncodingShape.jmp r

/-- A step reads as many operand bytes as the instruction has (R62). -/
theorem operandBytes_opcode (i : Instr) : operandBytes i.opcode = i.operands.length := by
  obtain ⟨_, _, hn, _⟩ := encodingShape i
  exact hn

theorem fetch_of_bytesAtPc {i : Instr} (h : BytesAtPc (encode i) s) : fetch s = .ok (encode i) := by
  obtain ⟨hfit, hread⟩ := h
  rw [encode, List.length_cons] at hfit
  have hop : Memory.read s.mem s.pc.toNat = i.opcode := hread 0 (by simp [encode])
  have hoperands : readOperands i.operands.length (s.pc.toNat + 1) s = .ok i.operands := by
    refine readOperands_of_bytes (by omega) fun k hk => ?_
    rw [Nat.add_right_comm]
    exact hread (k + 1) (Nat.succ_lt_succ hk)
  simp only [fetch, memRead_of_le s (show s.pc.toNat ≤ 255 by omega), hop, operandBytes_opcode, hoperands, bind,
    Except.bind]
  rfl

theorem decode_encode (i : Instr) : decode (encode i) = .instr i [] := by
  rw [← decode_encode_append, List.append_nil]

/-- Settles O27: the fetch reads the encoding of the instruction, and the decoder gives the instruction back. -/
theorem stepRunsDecodedInstruction : Obligations.StepRunsDecodedInstruction := fun _ i hr h =>
  step_of_fetch hr (fetch_of_bytesAtPc h) (decode_encode i)

/-- Settles O25: the opcode fetch raises before anything else. -/
theorem fetchBeyondMemoryFaults : Obligations.FetchBeyondMemoryFaults := fun s hr hpc =>
  ⟨_, step_of_fetch_error hr (fetch_beyond hpc), raised_raise _ s, BitVec.ofNat_toNat 9 s.pc⟩

/-! ### Programs at `pc` -/

/-- Settles O32: the step of a JMP to its own address is the identity. -/
theorem jumpToItselfNeverEnds : Obligations.JumpToItselfNeverEnds := by
  intro s r i hr hbytes hi htarget
  refine run_of_step_self ?_
  have hself : s.jumpTo (s.readReg i) = s := by
    have hpc : (s.readReg i).setWidth 9 = s.pc := BitVec.eq_of_toNat_eq ((toNat_setWidth_nine _).trans htarget)
    rw [State.jumpTo_eq, hpc]
    rfl
  rw [stepRunsDecodedInstruction s (.jmp r) hr hbytes, exec_jmp hi, hself]

/-- Settles O39: the PUSH moves `pc` to the cell it has just written. -/
theorem storedByteIsFetchedNext : Obligations.StoredByteIsFetchedNext := by
  intro s r i hr hwf hbytes hi haddr
  have hcell := read_pushed ((decSp s).readReg i) hwf
  have hle := stackAddress_le (decSp s)
  have hpc : (s.pc + 2).toNat = s.pc.toNat + 2 := by
    have h2 : (2 : Addr9).toNat = 2 := rfl
    rw [BitVec.toNat_add, h2]
    omega
  rw [decSp_readReg, haddr] at hcell
  refine ⟨_, (stepRunsDecodedInstruction s (.push r) hr hbytes).trans (exec_push hi), hr, hr, ?_, ?_⟩
  · rw [State.setPc_pc]
    omega
  · rw [State.setPc_pc, State.setPc_mem, hpc, decSp_readReg, haddr]
    exact hcell

/-- Settles O40: the operand byte is part of what the fetch has read when the CALL pushes over it. -/
theorem callUsesOperandReadBeforePush : Obligations.CallUsesOperandReadBeforePush := by
  intro s r i hr hwf hpc hbytes hi haddr
  have hcell := read_pushed (BitVec.ofNat 8 (s.pc.toNat + 2)) hwf
  rw [haddr] at hcell
  refine ⟨_, (stepRunsDecodedInstruction s (.call r) hr hbytes).trans (exec_call hi hpc), ?_, ?_⟩
  · rw [jumpTo_pc_toNat, decSp_readReg_toNat]
  · rw [State.jumpTo_eq, State.setPc_mem, haddr, hcell, BitVec.toNat_ofNat]
    omega

/-! ### The host's table words (log entry 21) -/

theorem wordOfBytes_cons (v : Byte) (bs : List Byte) : wordOfBytes (v :: bs) = v.toNat + 256 * wordOfBytes bs := rfl

theorem wordOfBytes_lt (bs : List Byte) : wordOfBytes bs < 2 ^ (8 * bs.length) := by
  induction bs with
  | nil => decide
  | cons v bs ih =>
    have hv := v.isLt
    rw [wordOfBytes_cons, List.length_cons, Nat.mul_succ, Nat.pow_add]
    omega

/-- The lowest byte of a word of bytes is the first of them, what is above it the word of the rest. -/
theorem ofNat_wordOfBytes_cons (v : Byte) (bs : List Byte) : BitVec.ofNat 8 (wordOfBytes (v :: bs)) = v := by
  refine BitVec.eq_of_toNat_eq ?_
  have hv := v.isLt
  rw [wordOfBytes_cons, BitVec.toNat_ofNat]
  omega

theorem wordOfBytes_cons_div (v : Byte) (bs : List Byte) : wordOfBytes (v :: bs) / 256 = wordOfBytes bs := by
  have hv := v.isLt
  rw [wordOfBytes_cons]
  omega

/-- A table word made of one to three bytes holds them, with zeros after them. -/
theorem tableBytes_wordOfBytes (bs : List Byte) (h : bs.length ≤ 3) :
    tableBytes (8 * bs.length) (wordOfBytes bs) = bs ++ List.replicate (3 - bs.length) 0 := by
  have hdiv : ∀ w, w / 65536 = w / 256 / 256 := fun w => (Nat.div_div_eq_div_mul w 256 256).symm
  simp only [tableBytes, Nat.mod_eq_of_lt (wordOfBytes_lt bs), hdiv]
  match bs, h with
  | [], _ => rfl
  | [a], _ => simp only [wordOfBytes_cons_div, ofNat_wordOfBytes_cons]; rfl
  | [a, b], _ => simp only [wordOfBytes_cons_div, ofNat_wordOfBytes_cons]; rfl
  | [a, b, c], _ => simp only [wordOfBytes_cons_div, ofNat_wordOfBytes_cons]; rfl

theorem length_encode_le (i : Instr) : (encode i).length ≤ 3 := by
  cases i <;> simp [encode, Instr.operands]

/-- Storing bytes writes memory and nothing else. -/
theorem storeBytes_eq (addr : Nat) (bs : List Byte) (s : State) :
    storeBytes addr bs s = { s with mem := (storeBytes addr bs s).mem } := by
  induction bs generalizing addr s with
  | nil => rfl
  | cons v vs ih =>
    rw [storeBytes, ih]
    split <;> rfl

/-- Storing bytes leaves every cell below them alone. -/
theorem read_storeBytes_of_lt {a : Nat} (h : a < addr) (bs : List Byte) (s : State) :
    Memory.read (storeBytes addr bs s).mem a = Memory.read s.mem a := by
  induction bs generalizing addr s with
  | nil => rfl
  | cons v vs ih =>
    rw [storeBytes, ih (by omega)]
    split
    · exact Memory.read_write_of_ne s.mem v h.ne
    · rfl

/-- Bytes stored below address 256 are read back (R42). -/
theorem read_storeBytes {k : Nat} (hk : k < bs.length) (hfit : addr + k < 256) (hwf : Memory.wf s.mem = true) :
    Memory.read (storeBytes addr bs s).mem (addr + k) = bs[k] := by
  induction bs generalizing addr s k with
  | nil => cases hk
  | cons v vs ih =>
    have haddr : addr < Config.memSize := by rw [Config.memSize]; omega
    rw [storeBytes, if_pos haddr]
    cases k with
    | zero => exact (read_storeBytes_of_lt (Nat.lt_add_one addr) vs _).trans (Memory.read_write_self addr v hwf)
    | succ k =>
      rw [← Nat.add_assoc, Nat.add_right_comm]
      exact ih (Nat.lt_of_succ_lt_succ hk) (by omega) (Memory.wf_write v haddr hwf)

/-- The table word of an instruction, placed at `pc`, puts the bytes of the instruction there. -/
theorem bytesAtPc_withFetchWord (i : Instr) (hfit : s.pc.toNat + (encode i).length ≤ 256)
    (hwf : Memory.wf s.mem = true) :
    BytesAtPc (encode i) (s.withFetchWord (8 * (encode i).length) (wordOfBytes (encode i))) := by
  rw [State.withFetchWord, tableBytes_wordOfBytes _ (length_encode_le i), storeBytes_eq]
  refine ⟨hfit, fun k hk => ?_⟩
  have hlen : k < (encode i ++ List.replicate (3 - (encode i).length) 0).length := by
    rw [List.length_append]
    omega
  exact (read_storeBytes hlen (by omega) hwf).trans (List.getElem_append_left hk)

/-- Settles O4: the bytes of a table word are those of the instruction and zeros, so it decodes to it, and placed at
`pc` they are what the next step fetches. -/
theorem tableWordDecodesAndRuns : Obligations.TableWordDecodesAndRuns := by
  refine fun i s => ⟨?_, fun hr hfit hwf => stepRunsDecodedInstruction _ i ?_ (bytesAtPc_withFetchWord i hfit hwf)⟩
  · rw [decodeTableWord, tableBytes_wordOfBytes _ (length_encode_le i), decode_encode_append]
  · rw [State.withFetchWord, storeBytes_eq]
    exact hr

end Sys2Proof.Machine

/-! PROOFS. PUSH, POP and CALL, and the pairs PUSH and POP, CALL and RET (42_control_data_stack.md R101, R102, R104;
43_control_transfer.md R107, R113). -/

namespace Sys2Proof.Machine

variable {s : State}

/-- The decrement of SP changes no other register, so a push does not either. -/
theorem regsKeptBut_decSp (s : State) : RegsKeptBut [7] s (decSp s) := fun _ hne =>
  decSp_readReg_of_ne s (List.ne_of_not_mem_cons hne)

/-- Settles O15, from the state an executed PUSH leaves, the frame of a push, and the faults of the format. -/
theorem pushStoresBelowStackPointer : Obligations.PushStoresBelowStackPointer := fun s _ =>
  ⟨rfl, fun i hi => ⟨_, exec_push hi, stackAddress_decSp s, regsKeptBut_decSp s, stackAddress_decSp s,
      memoryKeptBut_pushed s _ _, fun hwf => (read_pushed _ hwf).trans (decSp_readReg s i), rfl, rfl,
      ⟨rfl, rfl, rfl, rfl⟩, rfl⟩,
    registerFaults_of_one_operand rfl exec_push_bad⟩

theorem readReg_popped_reg (s : State) {i : Fin 8} (h : i ≠ 7) (v : Byte) : (incSp (s.writeReg i v)).readReg i = v := by
  rw [incSp_readReg_of_ne _ h, State.readReg_writeReg_self]

/-- Settles O16, from the state an executed POP leaves, the frame of a pop, and the faults of the format. -/
theorem popLoadsFromStackPointer : Obligations.PopLoadsFromStackPointer := by
  refine fun s r => ⟨rfl, fun i hi => ⟨_, exec_pop hi, fun h7 => ⟨readReg_popped_reg s h7 _, ?_⟩, fun h7 => ?_,
      regsKeptBut_popped_reg s i _, fun _ => rfl, rfl, rfl, ⟨rfl, rfl, rfl, rfl⟩, rfl⟩,
    registerFaults_of_one_operand rfl exec_pop_bad⟩
  · exact (sp_popped_reg s i _).trans (by rw [if_neg h7])
  · exact (sp_popped_reg s i _).trans (by rw [if_pos h7]; rfl)

/-- The increment of a pop undoes the decrement of a push (R104). -/
theorem sp_add_one_of_eq_decSp {u : State} (h : u.sp = (decSp s).sp) : u.sp + 1 = s.sp := by
  rw [h, decSp_sp, BitVec.sub_add_cancel]

/-- Settles O18: the cell at SP holds what the PUSH stored, and the POP's increment undoes the PUSH's decrement. -/
theorem pushThenPopRestoresValue : Obligations.PushThenPopRestoresValue := by
  intro s t u r r' i j hi hj hwf hpush hsp hcell
  rw [exec_push hi, Host.Outcome.next.injEq] at hpush
  subst hpush
  have hvalue : Memory.read u.mem (stackAddress u) = if i = 7 then s.sp - 1 else s.readReg i :=
    (hcell.trans (read_pushed _ hwf)).trans (decSp_readReg s i)
  refine ⟨_, exec_pop hj, fun h7 => ⟨(readReg_popped_reg u h7 _).trans hvalue, ?_⟩, fun h7 => ?_⟩
  · rw [State.sp_setPc, incSp_sp, State.sp_writeReg, if_neg h7]
    exact sp_add_one_of_eq_decSp hsp
  · rw [State.sp_setPc, incSp_sp, State.sp_writeReg, if_pos h7, hvalue]

/-! ### CALL and RET -/

/-- CALL's return address fits a byte (R107). -/
theorem returnAddress_toNat (h : s.pc.toNat ≤ 253) : (BitVec.ofNat 8 (s.pc.toNat + 2)).toNat = s.pc.toNat + 2 := by
  rw [BitVec.toNat_ofNat]
  omega

/-- Settles O19, from the state an executed CALL leaves, the frame of its push, and its faults in their order. -/
theorem callPushesReturnAddress : Obligations.CallPushesReturnAddress := by
  refine fun s r => ⟨rfl, fun i hi hpc => ⟨_, exec_call hi hpc, stackAddress_decSp s, regsKeptBut_decSp s,
      stackAddress_decSp s, memoryKeptBut_pushed s _ _, fun hwf => ?_, ?_, rfl, rfl, ⟨rfl, rfl, rfl, rfl⟩⟩,
    fun i hi hpc => exists_raised_of_eq_raise (exec_call_at_top hi hpc),
    registerFaults_of_one_operand rfl exec_call_bad⟩
  · exact (congrArg BitVec.toNat (read_pushed _ hwf)).trans (returnAddress_toNat hpc)
  · exact (jumpTo_pc_toNat _ _).trans (decSp_readReg_toNat s i)

/-- Settles O22: the cell at SP holds the return address, and the RET's increment undoes the CALL's decrement. -/
theorem callThenRetReturns : Obligations.CallThenRetReturns := by
  intro s t u r i hi hpc hwf hcall hsp hcell
  rw [exec_call hi hpc, Host.Outcome.next.injEq] at hcall
  subst hcall
  have hreturn : Memory.read u.mem (stackAddress u) = BitVec.ofNat 8 (s.pc.toNat + 2) :=
    hcell.trans (read_pushed _ hwf)
  refine ⟨_, exec_ret, ?_, ?_⟩
  · rw [incSp_pc, jumpTo_pc_toNat, hreturn, returnAddress_toNat hpc]
  · rw [incSp_sp]
    exact sp_add_one_of_eq_decSp hsp

end Sys2Proof.Machine

/-! PROOFS. The order in which a step looks for faults (60_exceptions.md R123). -/

namespace Sys2Proof.Machine

variable {s t : State} {o : Host.Outcome State Fault Refusal} {expected : Option Fault} {op a b : Byte}

/-- `o`, answered from `s`, takes the expected fault, or none when none is expected. -/
def TakesFault (s : State) (expected : Option Fault) (o : Host.Outcome State Fault Refusal) : Prop :=
  ∃ t, o = .next t ∧
    match expected with
    | some f => Raised f s t
    | none => ¬ FailedRun t

theorem takesFault_of_raise {f : Fault} (h : o = .next (s.raise f)) : TakesFault s (some f) o :=
  ⟨_, h, raised_raise f s⟩

theorem takesFault_none (h : o = .next t) (ht : t.status ≠ .faulted) : TakesFault s none o := ⟨t, h, ht⟩

/-! ### The register checks of an instruction, `a` before `b` (R87) -/

/-- A register check comes before whatever fault is expected after it. -/
theorem takesFault_reg (hgood : ∀ k, Selects a k → TakesFault s expected o)
    (hbad : NoRegister a → o = .next (s.raise (.registerIndexFault a))) :
    TakesFault s (if 7 < a.toNat then some (.registerIndexFault a) else expected) o := by
  rcases selects_or_noRegister a with ⟨k, hk⟩ | ha
  · have hle : ¬ 7 < a.toNat := by omega
    rw [if_neg hle]
    exact hgood k hk
  · rw [if_pos (show 7 < a.toNat from ha)]
    exact takesFault_of_raise (hbad ha)

/-- The two register checks of an ALU instruction. -/
def pairFault (a b : Byte) : Option Fault :=
  if 7 < a.toNat then some (.registerIndexFault a)
  else if 7 < b.toNat then some (.registerIndexFault b)
  else none

theorem takesFault_pair {mk : Byte → Byte → Instr} {next : Fin 8 → Fin 8 → State}
    (hgood : ∀ i j, Selects a i → Selects b j → exec (mk a b) s = .next (next i j))
    (hnf : ∀ i j, (next i j).status ≠ .faulted)
    (hbada : NoRegister a → exec (mk a b) s = .next (s.raise (.registerIndexFault a)))
    (hbadb : ∀ i, Selects a i → NoRegister b → exec (mk a b) s = .next (s.raise (.registerIndexFault b))) :
    TakesFault s (pairFault a b) (exec (mk a b) s) :=
  takesFault_reg
    (fun i hi => takesFault_reg (fun j hj => takesFault_none (hgood i j hi hj) (hnf i j)) (hbadb i hi)) hbada

/-! ### The order of each format -/

/-- What a step of an ALU-flagged opcode looks for: operand addresses, then the opcode, then the registers. -/
def aluFault (s : State) : Option Fault :=
  if 254 ≤ s.pc.toNat then some (.addressFault 256)
  else if Memory.read s.mem s.pc.toNat ∉ aluBytes then some (.unsupportedAluOp (Memory.read s.mem s.pc.toNat))
  else pairFault (Memory.read s.mem (s.pc.toNat + 1)) (Memory.read s.mem (s.pc.toNat + 2))

/-- What a step of a control instruction with a register operand looks for: the operand bytes, which lie beyond the
memory from `top` on, then the register, then `rest`. -/
def registerFault (top : Nat) (s : State) (rest : Option Fault) : Option Fault :=
  if top ≤ s.pc.toNat then some (.addressFault 256)
  else if 7 < (Memory.read s.mem (s.pc.toNat + 1)).toNat then
    some (.registerIndexFault (Memory.read s.mem (s.pc.toNat + 1)))
  else rest

/-- What a step of CALL looks for after its register: the return address. -/
def callFault (s : State) : Option Fault := if s.pc.toNat = 254 then some (.addressFault 256) else none

theorem step_takesFault_alu (hr : s.status = .running) (hpc : s.pc.toNat ≤ 255)
    (ha : (Memory.read s.mem s.pc.toNat).getLsbD 5 = true) : TakesFault s (aluFault s) (step s) := by
  have halu := (aluFlag_eq (Memory.read s.mem s.pc.toNat)).trans ha
  unfold aluFault
  split_ifs with htop htable
  · exact takesFault_of_raise (step_alu_operands_beyond ⟨hr, hpc, rfl⟩ halu htop)
  · have hlo : s.pc.toNat ≤ 253 := by omega
    have hnf : s.status ≠ .faulted := by simp [hr]
    simp only [aluBytes, List.mem_cons, List.not_mem_nil, or_false] at htable
    rcases htable with hop | hop | hop
    · rw [step_of_fetch hr (fetch_two hlo hop rfl) (decode_add _ _ _)]
      exact takesFault_pair (fun _ _ => exec_add) (fun _ _ => hnf) exec_add_bad_a fun _ => exec_add_bad_b
    · rw [step_of_fetch hr (fetch_two hlo hop rfl) (decode_mul _ _ _)]
      exact takesFault_pair (fun _ _ => exec_mul) (fun _ _ => hnf) exec_mul_bad_a fun _ => exec_mul_bad_b
    · rw [step_of_fetch hr (fetch_two hlo hop rfl) (decode_cmp _ _ _)]
      exact takesFault_pair (fun _ _ => exec_cmp) (fun _ _ => hnf) exec_cmp_bad_a fun _ => exec_cmp_bad_b
  · exact takesFault_of_raise (step_unsupported hr (by omega) rfl halu htable)

theorem step_takesFault_format_R {mk : Byte → Instr} (hr : s.status = .running) (hpc : s.pc.toNat ≤ 255)
    (hop : Memory.read s.mem s.pc.toNat = op) (hn : operandBytes op = 1)
    (hd : ∀ a, decode [op, a] = .instr (mk a) [])
    (hgood : s.pc.toNat ≤ 254 → ∀ k, Selects (Memory.read s.mem (s.pc.toNat + 1)) k →
      TakesFault s expected (exec (mk (Memory.read s.mem (s.pc.toNat + 1))) s))
    (hbad : ∀ r, NoRegister r → exec (mk r) s = .next (s.raise (.registerIndexFault r))) :
    TakesFault s (registerFault 255 s expected) (step s) := by
  unfold registerFault
  by_cases htop : 255 ≤ s.pc.toNat
  · rw [if_pos htop]
    exact takesFault_of_raise (step_of_fetch_error hr (fetch_one_beyond (le_antisymm hpc htop) hop hn))
  · rw [if_neg htop, step_of_fetch hr (fetch_one (by omega) hop hn) (hd _)]
    exact takesFault_reg (hgood (by omega)) (hbad _)

theorem step_takesFault_ldi (hr : s.status = .running) (hpc : s.pc.toNat ≤ 255)
    (hop : Memory.read s.mem s.pc.toNat = opcLdi) : TakesFault s (registerFault 254 s none) (step s) := by
  unfold registerFault
  by_cases htop : 254 ≤ s.pc.toNat
  · rw [if_pos htop]
    exact takesFault_of_raise (step_of_fetch_error hr (fetch_two_beyond htop hpc hop rfl))
  · rw [if_neg htop, step_of_fetch hr (fetch_two (by omega) hop rfl) (decode_ldi _ _ _)]
    exact takesFault_reg (fun _ hk => takesFault_none (exec_ldi hk) (by simp [hr])) exec_ldi_bad

theorem exec_takesFault_call {k : Fin 8} (hr : s.status = .running) (hpc : s.pc.toNat ≤ 254) (hk : Selects a k) :
    TakesFault s (callFault s) (exec (.call a) s) := by
  unfold callFault
  split_ifs with htop
  · have hcall := exec_call_at_top hk htop.ge
    rw [htop] at hcall
    exact takesFault_of_raise hcall
  · exact takesFault_none (exec_call hk (by omega)) (by simp [State.jumpTo_eq, hr])

/-! ### The fixed order read at each opcode -/

theorem firstFault_alu (hpc : s.pc.toNat ≤ 255) (ha : (Memory.read s.mem s.pc.toNat).getLsbD 5 = true) :
    firstFault s = aluFault s := by
  have h254 : 254 ≤ s.pc.toNat ↔ s.pc.toNat = 255 ∨ s.pc.toNat = 254 := by omega
  simp only [firstFault, aluFault, pairFault, hpc.not_gt, ha, h254, ite_or, if_false, if_true]

theorem firstFault_ldi (hpc : s.pc.toNat ≤ 255) (hop : Memory.read s.mem s.pc.toNat = opcLdi) :
    firstFault s = registerFault 254 s none := by
  have h254 : 254 ≤ s.pc.toNat ↔ s.pc.toNat = 255 ∨ s.pc.toNat = 254 := by omega
  simp [firstFault, registerFault, hpc.not_gt, hop, opcLdi, controlBytes, h254, ite_or]

theorem firstFault_call (hpc : s.pc.toNat ≤ 255) (hop : Memory.read s.mem s.pc.toNat = opcCall) :
    firstFault s = registerFault 255 s (callFault s) := by
  simp [firstFault, registerFault, callFault, hpc.not_gt, hop, opcCall, controlBytes, hpc.ge_iff_eq]

theorem firstFault_format_R (hpc : s.pc.toNat ≤ 255)
    (hop : Memory.read s.mem s.pc.toNat ∈ [opcPrn, opcPush, opcPop, opcJmp]) :
    firstFault s = registerFault 255 s none := by
  simp only [List.mem_cons, List.not_mem_nil, or_false] at hop
  rcases hop with hop | hop | hop | hop <;>
    simp [firstFault, registerFault, hpc.not_gt, hop, opcPrn, opcPush, opcPop, opcJmp, controlBytes, hpc.ge_iff_eq]

theorem firstFault_hlt_ret (hpc : s.pc.toNat ≤ 255) (hop : Memory.read s.mem s.pc.toNat ∈ [opcHlt, opcRet]) :
    firstFault s = none := by
  rcases List.mem_pair.mp hop with hop | hop <;> simp [firstFault, hpc.not_gt, hop, opcHlt, opcRet]

theorem firstFault_unknown (hpc : s.pc.toNat ≤ 255) (hbit : (Memory.read s.mem s.pc.toNat).getLsbD 5 = false)
    (hnot : Memory.read s.mem s.pc.toNat ∉ controlBytes) : firstFault s = none := by
  simp only [firstFault, hpc.not_gt, hbit, hnot, Bool.false_eq_true, if_false, ite_self]

/-! ### The step follows it -/

theorem step_takesFault_control (hr : s.status = .running) (hpc : s.pc.toNat ≤ 255)
    (hbit : (Memory.read s.mem s.pc.toNat).getLsbD 5 = false) : TakesFault s (firstFault s) (step s) := by
  have hnf : s.status ≠ .faulted := by simp [hr]
  by_cases ht : Memory.read s.mem s.pc.toNat ∈ controlTable
  · simp only [controlTable, List.mem_cons, List.not_mem_nil, or_false] at ht
    rcases ht with hop | hop | hop | hop | hop | hop | hop | hop
    · rw [firstFault_ldi hpc hop]
      exact step_takesFault_ldi hr hpc hop
    · rw [firstFault_format_R hpc (by simp [hop])]
      exact step_takesFault_format_R hr hpc hop rfl (fun a => decode_prn a _)
        (fun _ _ hk => takesFault_none (exec_prn hk) hnf) fun _ => exec_prn_bad
    · rw [firstFault_format_R hpc (by simp [hop])]
      exact step_takesFault_format_R hr hpc hop rfl (fun a => decode_push a _)
        (fun _ _ hk => takesFault_none (exec_push hk) hnf) fun _ => exec_push_bad
    · rw [firstFault_format_R hpc (by simp [hop])]
      exact step_takesFault_format_R hr hpc hop rfl (fun a => decode_pop a _)
        (fun _ _ hk => takesFault_none (exec_pop hk) hnf) fun _ => exec_pop_bad
    · rw [firstFault_hlt_ret hpc (by simp [hop])]
      exact takesFault_none (step_hlt ⟨hr, hpc, hop⟩) (by simp)
    · rw [firstFault_call hpc hop]
      exact step_takesFault_format_R hr hpc hop rfl (fun a => decode_call a _)
        (fun hlo _ hk => exec_takesFault_call hr hlo hk) fun _ => exec_call_bad
    · rw [firstFault_hlt_ret hpc (by simp [hop]), step_of_fetch hr (fetch_none hpc hop rfl) (decode_ret _)]
      exact takesFault_none exec_ret hnf
    · rw [firstFault_format_R hpc (by simp [hop])]
      exact step_takesFault_format_R hr hpc hop rfl (fun a => decode_jmp a _)
        (fun _ _ hk => takesFault_none (exec_jmp hk) hnf) fun _ => exec_jmp_bad
  · have hnot := mt mem_controlTable_iff.mpr ht
    rw [firstFault_unknown hpc hbit hnot]
    exact takesFault_none (step_unknownControl ⟨hr, hpc, rfl⟩ hbit hnot) (by simp)

theorem step_takesFault_firstFault (hr : s.status = .running) : TakesFault s (firstFault s) (step s) := by
  by_cases hpc : s.pc.toNat ≤ 255
  · cases hbit : (Memory.read s.mem s.pc.toNat).getLsbD 5 with
    | false => exact step_takesFault_control hr hpc hbit
    | true =>
      rw [firstFault_alu hpc hbit]
      exact step_takesFault_alu hr hpc hbit
  · have hgt : 255 < s.pc.toNat := by omega
    have hfirst : firstFault s = some (.addressFault s.pc.toNat) := if_pos hgt
    rw [hfirst]
    exact takesFault_of_raise (step_of_fetch_error hr (fetch_beyond hgt))

/-- Settles O29: a fetch beyond the memory faults first, and each route by bit 5 keeps its part of the order. -/
theorem faultsFollowFixedOrder : Obligations.FaultsFollowFixedOrder := by
  intro s hr
  obtain ⟨t, ht, hfault⟩ := step_takesFault_firstFault hr
  refine ⟨t, ht, ?_⟩
  revert hfault
  cases firstFault s <;> exact id

end Sys2Proof.Machine
